-- ==== Sys2Proof/Word.lean ====
section
/-! DEFINITION. The two element widths of B58CE (00_scope.md R6): the 64-bit limb and register, and the 8-bit buffer cell. -/

namespace Sys2Proof

/-- A register or a limb: 64 bits, unsigned (R6, R7). -/
abbrev Word := BitVec 64

/-- A cell of `BUF` or `DIG`: 8 bits (R6). -/
abbrev Byte := BitVec 8

/-- Which of the two cell-indexed spaces of 20_memory.md R50: the byte buffer `BUF` or the digit buffer `DIG`. -/
inductive Buffer where
  | buf
  | dig
  deriving DecidableEq, Repr

end Sys2Proof
end

