-- ==== Sys2Proof/Syntax.lean ====
section
/-! DEFINITION. The twelve commands of B58CE (30_encoding.md R72), one constructor per row of the opcode table. No
operand is in the command word (R71), so no constructor has a field. -/

namespace Sys2Proof

/-- A command, by the mnemonic of R72. -/
inductive Instr where
  /-- carrying_add on `OPA`, `OPB`. -/
  | cadd
  /-- carrying_mul on `OPA`, `OPB`, `OPC`. -/
  | cmul
  /-- div_rem on `OPA`, `OPB`. -/
  | divr
  /-- Clear the limb file. -/
  | bclr
  /-- inplace_add of `OPA` to the active limbs. -/
  | badd
  /-- inplace_mul of the active limbs by `OPA`. -/
  | bmul
  /-- div_rem_scalar of the active limbs by `OPA`. -/
  | bdiv
  /-- encode_chunk of `OPA` into `DIG`. -/
  | chunk
  /-- Load `BUF`, big-endian, into the limb file. -/
  | ldbe
  /-- Serialise the active limbs to `BUF`, big-endian. -/
  | stbe
  /-- Byte string to digit string. -/
  | enc58
  /-- Digit string to byte string. -/
  | dec58
  deriving DecidableEq, Repr

end Sys2Proof
end

