-- ==== Sys2Proof/Decode.lean ====
section
/-! DEFINITION. The command word (30_encoding.md R70 to R74): decoder, total and rejecting by name, and encoder. -/

namespace Sys2Proof

/-- Why a command word is illegal (R73). An illegal word is not refused by the machine: it sets `ERR` to `E_UNKNOWN`. -/
inductive DecodeError where
  /-- Bits 63:8 are not all 0. -/
  | upperBitsSet
  /-- Bits 63:8 are 0 and bits 7:0 are none of the twelve opcodes. -/
  | unknownOpcode (opcode : Byte)
  deriving DecidableEq, Repr

/-- Field `opcode` of format C, bits 7:0 (R70). -/
def opcodeField (w : Word) : Byte := w.extractLsb' 0 8

/-- Field `zero` of format C, bits 63:8 (R70). -/
def zeroField (w : Word) : BitVec 56 := w.extractLsb' 8 56

/-- The opcode map of R72. -/
def opcodeTable : List (Byte × Instr) :=
  [ (0x01#8, .cadd), (0x02#8, .cmul), (0x03#8, .divr),
    (0x10#8, .bclr), (0x11#8, .badd), (0x12#8, .bmul), (0x13#8, .bdiv),
    (0x20#8, .chunk), (0x21#8, .ldbe), (0x22#8, .stbe), (0x23#8, .enc58), (0x24#8, .dec58) ]

/-- The command of an opcode, if the opcode is one of the twelve (R72, R73). -/
def instrOfOpcode (op : Byte) : Option Instr :=
  (opcodeTable.find? fun row => row.1 == op).map Prod.snd

/-- Decode a command word: the low byte, and the test that the upper 56 bits are 0 (R70, R73). -/
def decode (w : Word) : Except DecodeError Instr :=
  if zeroField w = 0#56 then
    match instrOfOpcode (opcodeField w) with
    | some i => .ok i
    | none => .error (.unknownOpcode (opcodeField w))
  else .error .upperBitsSet

/-- The opcode of a command (R72). -/
def Instr.opcode : Instr → Byte
  | .cadd => 0x01#8
  | .cmul => 0x02#8
  | .divr => 0x03#8
  | .bclr => 0x10#8
  | .badd => 0x11#8
  | .bmul => 0x12#8
  | .bdiv => 0x13#8
  | .chunk => 0x20#8
  | .ldbe => 0x21#8
  | .stbe => 0x22#8
  | .enc58 => 0x23#8
  | .dec58 => 0x24#8

/-- The command word of a command: its opcode in bits 7:0, zero above (R70). -/
def encode (i : Instr) : Word := (0#56 ++ i.opcode : BitVec (56 + 8))

/-- The command word that an opcode-table row's bits stand for. The port moves one whole 64-bit element (20_memory.md
R58), so there is no byte order to undo; a value above 64 bits is no command word (log 11). -/
def wordOfTableBits (nbits w : Nat) : Option Word :=
  if w % 2 ^ nbits < 2 ^ 64 then some (BitVec.ofNat 64 (w % 2 ^ nbits)) else none

/-- What the decoder reads from the `nbits` table bits `w`, numbered as spec/opcode_table.json numbers them. -/
def decodeTableWord (nbits w : Nat) : Option Instr :=
  match wordOfTableBits nbits w with
  | some c =>
    match decode c with
    | .ok i => some i
    | .error _ => none
  | none => none

end Sys2Proof
end

