-- ==== Sys2Proof/Config.lean ====
section
/-! DEFINITION. What one instance of B58CE fixes (00_scope.md R5, R6), and the free values: what the spec leaves
unspecified (00_scope.md R9, 93_implementation_defined.md U1 to U3). -/

namespace Sys2Proof

/-- The three implementation parameters of R5. They stand in State and no step changes them, so a statement about every
state holds for every instance of the hardware (log 4). -/
structure Params where
  /-- NLIMB: the number of limbs of the limb file. -/
  nlimb : Nat
  /-- BCAP: the number of cells of `BUF`. -/
  bcap : Nat
  /-- DCAP: the number of cells of `DIG`. -/
  dcap : Nat
  deriving DecidableEq, Repr

namespace Config

/-- The instance that `State.reset` stands for: the configuration of 95_test_vectors.md.
DESIGN CHOICE (log 4): the spec leaves all three open; no statement rests on these numbers. -/
def params : Params := { nlimb := 4, bcap := 24, dcap := 40 }

/-- The conversion base (R6). -/
def base : Word := 58#64

/-- The chunk size: ten digits in one division (R6). -/
def chunkSize : Nat := 10

/-- 58^10, the divisor of a chunk (R6). -/
def chunkDivisor : Word := 0x05FA8624C7FBA400#64

/-- FREE VALUE: what the register of that number (10_state.md R32) holds after unspecified event `event`, or what a
read of it then returns. No body: a proof about it holds for every value (log 1). -/
opaque freeWord (event : Nat) (number : Nat) : Word

/-- FREE VALUE: what cell `index` of that buffer holds after unspecified event `event`, or what a read of it then
returns. No body: a proof about it holds for every value (log 1). -/
opaque freeByte (event : Nat) (b : Buffer) (index : Nat) : Byte

end Config

end Sys2Proof
end

