-- ==== Sys2Proof/Machine/State.lean ====
section
/-! DEFINITION. The state of one B58CE instance (10_state.md R20 to R37), the host's side of the port that a step reads
and writes, the seven host actions (20_memory.md R51), the codes of the two kinds of failure (60_exceptions.md R201,
R202), and the state after reset. -/

namespace Sys2Proof.Machine

/-- The registers of the register map (10_state.md R32). -/
inductive Reg where
  | cmd
  | status
  | opa
  | opb
  | opc
  | r0
  | r1
  | len
  | blen
  | dlen
  | zcnt
  | ocap
  | pnlimb
  | pbcap
  | pdcap
  /-- Limb `i`, number 0x0100 + i. -/
  | w (i : Nat)
  /-- Every other number: reads 0, writes are ignored. -/
  | reserved
  deriving DecidableEq, Repr

/-- The seven actions of the host (R51), each one atomic step. The index widths are those of R50. -/
inductive HostAction where
  /-- `MemRead(REG, n)`. -/
  | readReg (n : BitVec 16)
  /-- `MemWrite(REG, n, v)`; for `n` = 0 it issues the command word `v`. -/
  | writeReg (n : BitVec 16) (v : Word)
  /-- `MemRead(BUF, i)`. -/
  | readBuf (i : BitVec 32)
  /-- `MemWrite(BUF, i, v)`. -/
  | writeBuf (i : BitVec 32) (v : Byte)
  /-- `MemRead(DIG, i)`. -/
  | readDig (i : BitVec 32)
  /-- `MemWrite(DIG, i, v)`. -/
  | writeDig (i : BitVec 32) (v : Byte)
  /-- `Reset` (R230). -/
  | reset
  deriving DecidableEq, Repr

/-- What a read returned to the host: 64 bits from `REG`, 8 bits from `BUF` or `DIG` (R59). -/
inductive ReadValue where
  | reg (v : Word)
  | cell (v : Byte)
  deriving DecidableEq, Repr

/-- The result codes of R201: the whole taxonomy, the codes the block never raises among them. -/
inductive ErrCode where
  | ok
  | inputTooLarge
  /-- Token codec only, never raised by the block. -/
  | inputTooSmall
  | badChar
  /-- Token codec only, never raised by the block. -/
  | decodedTooShort
  /-- Token codec only, never raised by the block. -/
  | typeMismatch
  /-- Token codec only, never raised by the block. -/
  | checksumMismatch
  | outputTooSmall
  | unknown
  deriving DecidableEq, Repr

/-- The seven fatal causes of R202. -/
inductive FatalCause where
  | addShort
  | addCarry
  | mulEmpty
  | mulTop
  | divEmpty
  | divZero
  | lenRange
  deriving DecidableEq, Repr

/-- The cells of a buffer that hold a value the spec fixes, or one drawn and listed: (index, byte) pairs with strictly
rising indices. A cell that is not listed holds an unspecified value (log 3). -/
abbrev Memory := List Host.Cell

/-- All the state the spec gives one instance (R20), and the model's own fields at the end. -/
structure State where
  /-- NLIMB, BCAP, DCAP, read through `PNLIMB`, `PBCAP`, `PDCAP` (R31); no step changes them. -/
  params : Params
  /-- The limb file, `W[0]` first (R21). -/
  w : List Word
  /-- `LEN`, the number of active limbs (R22). -/
  len : Word
  /-- `OPA` (R24). -/
  opa : Word
  /-- `OPB` (R24). -/
  opb : Word
  /-- `OPC` (R24). -/
  opc : Word
  /-- `R0` (R25). -/
  r0 : Word
  /-- `R1` (R25). -/
  r1 : Word
  /-- `BLEN` (R26). -/
  blen : Word
  /-- `DLEN` (R26). -/
  dlen : Word
  /-- `ZCNT` (R27). -/
  zcnt : Word
  /-- `OCAP` (R28). -/
  ocap : Word
  /-- `STATUS`: `ERR` 7:0, `FCAUSE` 15:8, `FATAL` 16 (R29). -/
  status : Word
  /-- `BUF` (R34). -/
  buf : Memory
  /-- `DIG` (R35). -/
  dig : Memory
  /-- MODEL'S OWN: the number of the next unspecified event (log 1). -/
  draw : Nat
  /-- MODEL'S OWN: the event whose free values the unlisted cells hold (log 3). -/
  epoch : Nat
  /-- MODEL'S OWN: the host actions still to come, the next one first (R13, log 5). -/
  script : List HostAction
  /-- MODEL'S OWN: the number of host actions performed, the position of R23 (log 5). -/
  pos : Nat
  /-- MODEL'S OWN: what the host has read, the latest first (log 5). -/
  reads : List ReadValue
  deriving DecidableEq, Repr

/-- Faults of a step. The spec gives every host action and every command word an effect (R51, R73, R200), a fatal halt
included (R203: a next state with `FATAL` = 1), so nobody raises a fault and the type has no constructor (log 9). Safe:
no behaviour of the hardware is cut short. -/
inductive Fault where
  deriving DecidableEq, Repr

/-- Refusals of a step. -/
inductive Refusal where
  /-- Raised by an arm of `exec` whose instruction has no meaning yet; no arm does. Safe: the run stops. -/
  | notModelled (mnemonic : String)
  deriving DecidableEq, Repr

/-- The limb file with every limb unspecified, by event `e`: limb `i` has register number 0x0100 + i (R32). -/
def freeLimbs (e n : Nat) : List Word :=
  (List.range n).map fun i => Config.freeWord e (0x100 + i)

/-- The reset values of R37 for an instance with parameters `p`, the reset being unspecified event `e`: control
registers 0, `OCAP` = 2^64 - 1, every limb and cell unspecified. The host's side is empty. -/
def State.resetAt (p : Params) (e : Nat) : State :=
  { params := p
    w := freeLimbs e p.nlimb
    len := 0#64
    opa := 0#64
    opb := 0#64
    opc := 0#64
    r0 := 0#64
    r1 := 0#64
    blen := 0#64
    dlen := 0#64
    zcnt := 0#64
    ocap := 0xFFFFFFFFFFFFFFFF#64
    status := 0#64
    buf := []
    dig := []
    draw := e + 1
    epoch := e
    script := []
    pos := 0
    reads := [] }

/-- The machine right after power-on (R37, R230): the instance `Config.params`, no host action waiting. DESIGN CHOICE:
the instance (log 4) and the event number 0 (log 1). -/
def State.reset : State := State.resetAt Config.params 0

end Sys2Proof.Machine
end

