-- ==== Sys2Proof/Machine/Flags.lean ====
section
/-! DEFINITION. `STATUS` (10_state.md R29) and its codes (60_exceptions.md R201, R202). The block has no other flag and no
condition code (R33). -/

namespace Sys2Proof.Machine

/-- The code of a result (R201). -/
def ErrCode.code : ErrCode → Byte
  | .ok => 0x00#8
  | .inputTooLarge => 0x01#8
  | .inputTooSmall => 0x02#8
  | .badChar => 0x03#8
  | .decodedTooShort => 0x04#8
  | .typeMismatch => 0x05#8
  | .checksumMismatch => 0x06#8
  | .outputTooSmall => 0x07#8
  | .unknown => 0xFF#8

/-- The code of a fatal cause (R202). -/
def FatalCause.code : FatalCause → Byte
  | .addShort => 0x01#8
  | .addCarry => 0x02#8
  | .mulEmpty => 0x03#8
  | .mulTop => 0x04#8
  | .divEmpty => 0x05#8
  | .divZero => 0x06#8
  | .lenRange => 0x07#8

/-- A `STATUS` word of its three fields; bits 63:17 are 0 (R29). -/
def packStatus (err fcause : Byte) (fatal : Bool) : Word :=
  (0#47 ++ BitVec.ofBool fatal ++ fcause ++ err : BitVec (47 + 1 + 8 + 8))

/-- Field `ERR`, bits 7:0 (R29). -/
def State.err (s : State) : Byte := s.status.extractLsb' 0 8

/-- Field `FCAUSE`, bits 15:8 (R29). -/
def State.fcause (s : State) : Byte := s.status.extractLsb' 8 8

/-- Field `FATAL`, bit 16 (R29). -/
def State.fatal (s : State) : Bool := s.status.getLsbD 16

/-- `ERR <- e`: bits 7:0 take the code, the other fields stay (R29). -/
def State.setErr (s : State) (e : ErrCode) : State :=
  { s with status := (s.status.extractLsb' 8 56 ++ e.code : BitVec (56 + 8)) }

end Sys2Proof.Machine
end

