-- ==== Sys2Proof/Machine/Ops.lean ====
section
/-! DEFINITION. The shared operations: the cells of a buffer, the ends of a command (00_scope.md R10), fatal entry
(60_exceptions.md R203) and reset beside it (R205, R230), the output-too-small effect and the delivery of a result
(43_chunked_converter.md R151). -/

namespace Sys2Proof.Machine

/-- What an unlisted index reads as in the list itself: no value the spec fixes (10_state.md R37, log 3). -/
def Memory.unlisted : Option Byte := none

/-- The listed value of index `i`. -/
def Memory.get? : Memory → Nat → Option Byte
  | [], _ => Memory.unlisted
  | c :: m, i => if c.1 = i then some c.2 else Memory.get? m i

/-- `vs` listed at indices `start`, `start + 1`, ... -/
def Memory.listed : Nat → List Byte → Memory
  | _, [] => []
  | start, v :: vs => (start, v) :: Memory.listed (start + 1) vs

/-- Write `vs` to the cells `start`, `start + 1`, ...; every other cell stays. -/
def Memory.splice (m : Memory) (start : Nat) (vs : List Byte) : Memory :=
  m.filter (fun c => decide (c.1 < start)) ++ Memory.listed start vs
    ++ m.filter (fun c => decide (start + vs.length ≤ c.1))

/-- The canonical form: indices strictly rising, and no entry equal to what an unlisted index reads as. -/
abbrev Memory.wf (m : Memory) : Prop :=
  m.Pairwise (fun a b => a.1 < b.1) ∧ ∀ c ∈ m, some c.2 ≠ Memory.unlisted

/-- The cells of a buffer. -/
def State.mem (s : State) : Buffer → Memory
  | .buf => s.buf
  | .dig => s.dig

/-- Replace the cells of a buffer. -/
def State.setMem (s : State) (b : Buffer) (m : Memory) : State :=
  match b with
  | .buf => { s with buf := m }
  | .dig => { s with dig := m }

/-- The physical capacity of a buffer: BCAP or DCAP (00_scope.md R5). -/
def State.capacity (s : State) : Buffer → Nat
  | .buf => s.params.bcap
  | .dig => s.params.dcap

/-- The value of cell `i`: the listed one, or the free value of the last event that left the cell unspecified
(10_state.md R37, 60_exceptions.md R203, log 3). -/
def State.cell (s : State) (b : Buffer) (i : Nat) : Byte :=
  ((s.mem b).get? i).getD (Config.freeByte s.epoch b i)

/-- Set the length register of a buffer: `BLEN` or `DLEN` (10_state.md R26). -/
def State.setLength (s : State) (b : Buffer) (n : Nat) : State :=
  match b with
  | .buf => { s with blen := BitVec.ofNat 64 n }
  | .dig => { s with dlen := BitVec.ofNat 64 n }

/-- The length register of a buffer (R26). -/
def State.length (s : State) : Buffer → Word
  | .buf => s.blen
  | .dig => s.dlen

/-- The effective output capacity, `min(OCAP, BCAP)` or `min(OCAP, DCAP)` (R151). -/
def State.effectiveCap (s : State) (b : Buffer) : Nat := min s.ocap.toNat (s.capacity b)

/-- `done`: the command ends with success (R10). -/
def State.done (s : State) : State := s.setErr .ok

/-- `fail e`: the command ends with a data error; only `ERR` changes here (R10, 60_exceptions.md R210). -/
def State.fail (s : State) (e : ErrCode) : State := s.setErr e

/-- `raise Fatal(c)`, fatal entry (R203): `STATUS` gets `FATAL` = 1, the cause and `ERR` = 0, and every other piece of
state becomes unspecified. No pc, mode or status is saved: the block has none. The parameters and the host's side stay. -/
def State.raiseFatal (s : State) (c : FatalCause) : State :=
  { s with
    status := packStatus ErrCode.ok.code c.code true
    w := freeLimbs s.draw s.params.nlimb
    opa := Config.freeWord s.draw 0x02
    opb := Config.freeWord s.draw 0x03
    opc := Config.freeWord s.draw 0x04
    r0 := Config.freeWord s.draw 0x05
    r1 := Config.freeWord s.draw 0x06
    len := Config.freeWord s.draw 0x07
    blen := Config.freeWord s.draw 0x08
    dlen := Config.freeWord s.draw 0x09
    zcnt := Config.freeWord s.draw 0x0A
    ocap := Config.freeWord s.draw 0x0B
    buf := []
    dig := []
    epoch := s.draw
    draw := s.draw + 1 }

/-- `Reset` (R230, R232): every piece of the block's state takes its reset value; the only way out of a fatal halt
(R205). The parameters and the host's side stay. -/
def State.resetBlock (s : State) : State :=
  { State.resetAt s.params s.draw with script := s.script, pos := s.pos, reads := s.reads }

/-- The output-too-small effect of R151: the length register becomes 0, the cells below the effective capacity become
unspecified (each takes a free value of this event), the cells at or above it are not written. -/
def State.outputTooSmall (s : State) (b : Buffer) : State :=
  let vs := (List.range (s.effectiveCap b)).map (Config.freeByte s.draw b)
  { (s.setMem b ((s.mem b).splice 0 vs)).setLength b 0 with draw := s.draw + 1 }

/-- The end of a command that fills a buffer with `zeros` zero cells and then `body` (R151): the exact number of cells
is compared with the effective capacity before any cell is written. -/
def State.deliver (s : State) (b : Buffer) (zeros : Nat) (body : List Byte) : State :=
  if zeros + body.length > s.effectiveCap b then (s.outputTooSmall b).fail .outputTooSmall
  else
    ((s.setMem b ((s.mem b).splice 0 (List.replicate zeros 0#8 ++ body))).setLength b (zeros + body.length)).done

end Sys2Proof.Machine
end

