-- ==== Sys2Proof/Machine/Operands.lean ====
section
/-! DEFINITION. How operands are read and results written: the values of limb, byte and digit strings (00_scope.md R8),
the active limbs (10_state.md R22), the cells of a string (R26), the byte-to-limb map (20_memory.md R55) and the register
map (10_state.md R32, 20_memory.md R52, R53). -/

namespace Sys2Proof.Machine

/-- `val` of R8: limbs, the least significant first. -/
def val : List Word → Nat
  | [] => 0
  | x :: xs => x.toNat + 2 ^ 64 * val xs

/-- The value of a string in a base, the most significant element first (R8). -/
def stringValue (base : Nat) : List Byte → Nat
  | [] => 0
  | d :: ds => d.toNat * base ^ ds.length + stringValue base ds

/-- `be` of R8: the value of a byte string. -/
def be (bs : List Byte) : Nat := stringValue 256 bs

/-- `b58` of R8: the value of a digit string. -/
def b58 (ds : List Byte) : Nat := stringValue 58 ds

/-- The elements of `v` in a base, the least significant first, with no zero at the high end; `fuel` bounds their number.
Its length is `nbytes` of R8 in base 256 where `v < 256 ^ fuel`. -/
def lowDigits (base : Nat) : Nat → Nat → List Byte
  | 0, _ => []
  | fuel + 1, v => if v = 0 then [] else BitVec.ofNat 8 (v % base) :: lowDigits base fuel (v / base)

/-- The shortest big-endian byte string of the value of some limbs (43_chunked_converter.md R165). -/
def shortestBytes (limbs : List Word) : List Byte :=
  (lowDigits 256 (8 * limbs.length) (val limbs)).reverse

/-- The number of leading zero cells (R160, R175). -/
def leadingZeros (cells : List Byte) : Nat := (cells.takeWhile (· == 0#8)).length

/-- The number that bytes stand for, the least significant first. -/
def littleEndian : List Byte → Nat
  | [] => 0
  | b :: bs => b.toNat + 256 * littleEndian bs

/-- The byte-to-limb map of R55: `n` limbs from bytes given by their distance `j` from the end, byte `j` at bits
`8*(j mod 8) + 7 : 8*(j mod 8)` of limb `j div 8`; bytes that are not there are 0. -/
def packLimbs : Nat → List Byte → List Word
  | 0, _ => []
  | n + 1, bs => BitVec.ofNat 64 (littleEndian (bs.take 8)) :: packLimbs n (bs.drop 8)

/-- Limb `i` of the limb file (10_state.md R21). -/
def State.limb (s : State) (i : Nat) : Word := s.w.getD i 0#64

/-- The active limbs `W[0..LEN-1]` (R22). -/
def State.active (s : State) : List Word := s.w.take s.len.toNat

/-- Cells `0 .. n-1` of a buffer. -/
def State.cells (s : State) (b : Buffer) (n : Nat) : List Byte := (List.range n).map (s.cell b)

/-- The register that a number names (10_state.md R32). -/
def regOfNumber (nlimb : Nat) (n : BitVec 16) : Reg :=
  match n.toNat with
  | 0x00 => .cmd
  | 0x01 => .status
  | 0x02 => .opa
  | 0x03 => .opb
  | 0x04 => .opc
  | 0x05 => .r0
  | 0x06 => .r1
  | 0x07 => .len
  | 0x08 => .blen
  | 0x09 => .dlen
  | 0x0A => .zcnt
  | 0x0B => .ocap
  | 0x0C => .pnlimb
  | 0x0D => .pbcap
  | 0x0E => .pdcap
  | k => if 0x100 ≤ k ∧ k < 0x100 + nlimb then .w (k - 0x100) else .reserved

/-- The register of a number, on this instance. -/
def State.regAt (s : State) (n : BitVec 16) : Reg := regOfNumber s.params.nlimb n

/-- What a read of a register returns while `FATAL` = 0 (20_memory.md R52): `CMD` and reserved numbers read 0. -/
def State.regValue (s : State) : Reg → Word
  | .cmd => 0#64
  | .status => s.status
  | .opa => s.opa
  | .opb => s.opb
  | .opc => s.opc
  | .r0 => s.r0
  | .r1 => s.r1
  | .len => s.len
  | .blen => s.blen
  | .dlen => s.dlen
  | .zcnt => s.zcnt
  | .ocap => s.ocap
  | .pnlimb => BitVec.ofNat 64 s.params.nlimb
  | .pbcap => BitVec.ofNat 64 s.params.bcap
  | .pdcap => BitVec.ofNat 64 s.params.dcap
  | .w i => s.limb i
  | .reserved => 0#64

/-- The registers whose content a fatal halt leaves unspecified, so that a read of one while halted returns an
unspecified value: all but `STATUS` and the parameters (20_memory.md R63, 60_exceptions.md R203). `CMD` holds nothing
and reads 0 (10_state.md R30), as a reserved number does: DEDUCED, log 7. -/
def Reg.unspecifiedWhileHalted : Reg → Bool
  | .cmd | .status | .pnlimb | .pbcap | .pdcap | .reserved => false
  | .opa | .opb | .opc | .r0 | .r1 | .len | .blen | .dlen | .zcnt | .ocap | .w _ => true

/-- What a write of `v` to a register other than `CMD` does while `FATAL` = 0 (R52): a read-write register takes `v`
whole; a read-only register or a reserved number ignores it. -/
def State.setReg (s : State) (r : Reg) (v : Word) : State :=
  match r with
  | .opa => { s with opa := v }
  | .opb => { s with opb := v }
  | .opc => { s with opc := v }
  | .len => { s with len := v }
  | .blen => { s with blen := v }
  | .dlen => { s with dlen := v }
  | .zcnt => { s with zcnt := v }
  | .ocap => { s with ocap := v }
  | .w i => { s with w := s.w.set i v }
  | .cmd | .status | .r0 | .r1 | .pnlimb | .pbcap | .pdcap | .reserved => s

end Sys2Proof.Machine
end

