-- ==== Sys2Proof/Machine/Scalar.lean ====
section
/-! DEFINITION. The scalar primitives and their commands CADD, CMUL, DIVR (41_scalar_primitives.md). -/

namespace Sys2Proof.Machine

/-- `carrying_add` of R101: (sum, carry). -/
def carryingAdd (a b : Word) : Word × Word :=
  let t := a.toNat + b.toNat
  (BitVec.ofNat 64 (t % 2 ^ 64), BitVec.ofNat 64 (t / 2 ^ 64))

/-- `carrying_mul` of R103: (low, high). -/
def carryingMul (a b carryIn : Word) : Word × Word :=
  let t := a.toNat * b.toNat + carryIn.toNat
  (BitVec.ofNat 64 (t % 2 ^ 64), BitVec.ofNat 64 (t / 2 ^ 64))

/-- The division of R105 with the dividend `hi * 2^64 + lo`: (quotient, remainder). -/
def divWide (hi lo d : Word) : Word × Word :=
  let t := hi.toNat * 2 ^ 64 + lo.toNat
  (BitVec.ofNat 64 (t / d.toNat), BitVec.ofNat 64 (t % d.toNat))

/-- `div_rem` of R105: (quotient, remainder). Every caller has tested the divisor. -/
def divRem (a b : Word) : Word × Word :=
  (BitVec.ofNat 64 (a.toNat / b.toNat), BitVec.ofNat 64 (a.toNat % b.toNat))

/-- Write a returned pair: first component to `R0`, second to `R1` (10_state.md R25). -/
def State.setResults (s : State) (p : Word × Word) : State := { s with r0 := p.1, r1 := p.2 }

/-- CADD (R102). -/
def execCadd (s : State) : Host.Outcome State Fault Refusal :=
  .next (s.setResults (carryingAdd s.opa s.opb)).done

/-- CMUL (R104). -/
def execCmul (s : State) : Host.Outcome State Fault Refusal :=
  .next (s.setResults (carryingMul s.opa s.opb s.opc)).done

/-- DIVR (R106). -/
def execDivr (s : State) : Host.Outcome State Fault Refusal :=
  if s.opb = 0#64 then .next (s.raiseFatal .divZero)
  else .next (s.setResults (divRem s.opa s.opb)).done

end Sys2Proof.Machine
end

