-- ==== Sys2Proof/Machine/BigInt.lean ====
section
/-! DEFINITION. The bounded BigInt engine: the procedures on the limb file and the commands BCLR, BADD, BMUL, BDIV
(42_bigint_engine.md). A procedure answers the new limb file, or the fatal cause it raises. -/

namespace Sys2Proof.Machine

/-- The `while` loop of R125: carry `c` into the limbs, stopping at the limb that absorbs it. Answers the limbs and the
carry that is left. -/
def propagateCarry : Word → List Word → List Word × Word
  | c, [] => ([], c)
  | c, x :: xs =>
    if c = 1#64 then
      let p := carryingAdd x 1#64
      let q := propagateCarry p.2 xs
      (p.1 :: q.1, q.2)
    else (x :: xs, c)

/-- `inplace_add(W, n, s)` of R125. -/
def inplaceAdd (w : List Word) (n : Nat) (s : Word) : Except FatalCause (List Word) :=
  if n < 2 then .error .addShort
  else
    match w.take n with
    | [] => .error .addShort
    | x :: xs =>
      let p := carryingAdd x s
      let q := propagateCarry p.2 xs
      if q.2 = 1#64 then .error .addCarry else .ok (p.1 :: q.1 ++ w.drop n)

/-- The `for` loop of R131: every limb times `s`, the 64-bit carry going into the next one. Answers the limbs and the
last carry. -/
def mulLimbs (s : Word) : Word → List Word → List Word × Word
  | c, [] => ([], c)
  | c, x :: xs =>
    let p := carryingMul x s c
    let q := mulLimbs s p.2 xs
    (p.1 :: q.1, q.2)

/-- `inplace_mul(W, n, s)` of R131. -/
def inplaceMul (w : List Word) (n : Nat) (s : Word) : Except FatalCause (List Word) :=
  if n = 0 then .error .mulEmpty
  else if w.getD (n - 1) 0#64 ≠ 0#64 then .error .mulTop
  else
    let q := mulLimbs s 0#64 (w.take (n - 1))
    .ok (q.1 ++ q.2 :: w.drop n)

/-- The long division of R137 on limbs given least significant first: the limbs above are divided first, and their
remainder is the high half of this limb's dividend (for the top limb it is 0). Answers quotient limbs and remainder. -/
def divLimbs (d : Word) : List Word → List Word × Word
  | [] => ([], 0#64)
  | x :: xs =>
    let q := divLimbs d xs
    let p := divWide q.2 x d
    (p.1 :: q.1, p.2)

/-- `div_rem_scalar(W, n, d)` of R137: the new limb file and the remainder. -/
def divRemScalar (w : List Word) (n : Nat) (d : Word) : Except FatalCause (List Word × Word) :=
  if n = 0 then .error .divEmpty
  else if d = 0#64 then .error .divZero
  else
    let q := divLimbs d (w.take n)
    .ok (q.1 ++ w.drop n, q.2)

/-- The length range check of R121: `LEN > NLIMB`. -/
def State.lenOutOfRange (s : State) : Bool := decide (s.len.toNat > s.params.nlimb)

/-- BCLR (R122). -/
def execBclr (s : State) : Host.Outcome State Fault Refusal :=
  .next ({ s with w := List.replicate s.params.nlimb 0#64 } : State).done

/-- BADD (R126). -/
def execBadd (s : State) : Host.Outcome State Fault Refusal :=
  if s.lenOutOfRange then .next (s.raiseFatal .lenRange)
  else
    match inplaceAdd s.w s.len.toNat s.opa with
    | .error c => .next (s.raiseFatal c)
    | .ok w => .next ({ s with w := w } : State).done

/-- BMUL (R132). -/
def execBmul (s : State) : Host.Outcome State Fault Refusal :=
  if s.lenOutOfRange then .next (s.raiseFatal .lenRange)
  else
    match inplaceMul s.w s.len.toNat s.opa with
    | .error c => .next (s.raiseFatal c)
    | .ok w => .next ({ s with w := w } : State).done

/-- BDIV (R138). -/
def execBdiv (s : State) : Host.Outcome State Fault Refusal :=
  if s.lenOutOfRange then .next (s.raiseFatal .lenRange)
  else
    match divRemScalar s.w s.len.toNat s.opa with
    | .error c => .next (s.raiseFatal c)
    | .ok q => .next ({ s with w := q.1, r1 := q.2 } : State).done

end Sys2Proof.Machine
end

