-- ==== Sys2Proof/Machine/Converter.lean ====
section
/-! DEFINITION. The chunked base converter: CHUNK, LDBE, STBE, ENC58, DEC58 (43_chunked_converter.md). -/

namespace Sys2Proof.Machine

/-- The loop of R155, `k` digits still to fill: `div_rem` by 58 while the value is not 0, zeros after that. The least
significant digit first. -/
def chunkLoop : Nat → Word → List Byte
  | 0, _ => []
  | k + 1, x =>
    if x = 0#64 then List.replicate (k + 1) 0#8
    else
      let p := divRem x Config.base
      p.2.setWidth 8 :: chunkLoop k p.1

/-- `encode_chunk(v)` of R155: ten digits, the most significant first. -/
def encodeChunk (v : Word) : List Byte := (chunkLoop Config.chunkSize v).reverse

/-- CHUNK (R156). -/
def execChunk (s : State) : Host.Outcome State Fault Refusal :=
  .next (s.deliver .dig 0 (encodeChunk s.opa))

/-- The limb file, `LEN` and `ZCNT` of a whole-buffer command (R150): `LEN <- NLIMB`. -/
def State.setNumber (s : State) (zeros : Nat) (w : List Word) : State :=
  { s with zcnt := BitVec.ofNat 64 zeros, len := BitVec.ofNat 64 s.params.nlimb, w := w }

/-- `load_be()` of R160: the state with the number loaded, or the data error. -/
def State.loadBe (s : State) : Except ErrCode State :=
  if s.blen.toNat > s.params.bcap then .error .inputTooLarge
  else
    let bytes := s.cells .buf s.blen.toNat
    let k := leadingZeros bytes
    if s.blen.toNat - k > 8 * s.params.nlimb then .error .inputTooLarge
    else .ok (s.setNumber k (packLimbs s.params.nlimb (bytes.drop k).reverse))

/-- LDBE (R161). -/
def execLdbe (s : State) : Host.Outcome State Fault Refusal :=
  match s.loadBe with
  | .error e => .next (s.fail e)
  | .ok t => .next t.done

/-- `store_be()` of R165, to its end: fatal, output too small, or the bytes delivered. -/
def State.storeBe (s : State) : State :=
  if s.lenOutOfRange then s.raiseFatal .lenRange
  else s.deliver .buf s.zcnt.toNat (shortestBytes s.active)

/-- STBE (R166). -/
def execStbe (s : State) : Host.Outcome State Fault Refusal :=
  .next s.storeBe

/-- The loop of R170: divide by 58^10 while the value is not 0. Answers the remainders, the least significant chunk
first, and the limb file that is left. `fuel` bounds the passes; two for each limb are enough (log 10). -/
def divideOut (n : Nat) : Nat → List Word → Except FatalCause (List Word × List Word)
  | 0, w => .ok ([], w)
  | fuel + 1, w =>
    if val (w.take n) = 0 then .ok ([], w)
    else
      match divRemScalar w n Config.chunkDivisor with
      | .error c => .error c
      | .ok q =>
        match divideOut n fuel q.1 with
        | .error c => .error c
        | .ok p => .ok (q.2 :: p.1, p.2)

/-- The digit string of the chunks of R170: from the last appended to the first, ten digits each, the leading zeros of
the whole removed. -/
def digitsOfChunks (chunks : List Word) : List Byte :=
  (chunks.reverse.flatMap encodeChunk).dropWhile (· == 0#8)

/-- ENC58 (R170). -/
def execEnc58 (s : State) : Host.Outcome State Fault Refusal :=
  match s.loadBe with
  | .error e => .next (s.fail e)
  | .ok t =>
    match divideOut t.params.nlimb (2 * t.params.nlimb) t.w with
    | .error c => .next (t.raiseFatal c)
    | .ok p => .next (({ t with w := p.2 } : State).deliver .dig t.zcnt.toNat (digitsOfChunks p.1))

/-- The accumulation loop of R175, Horner's method left to right on `n` limbs. -/
def accumulate (n : Nat) : List Byte → List Word → Except FatalCause (List Word)
  | [], w => .ok w
  | d :: ds, w =>
    match inplaceMul w n Config.base with
    | .error c => .error c
    | .ok w1 =>
      match inplaceAdd w1 n (d.setWidth 64) with
      | .error c => .error c
      | .ok w2 => accumulate n ds w2

/-- A legal digit value: 0..57 (R153). -/
def legalDigit (d : Byte) : Bool := decide (d.toNat < 58)

/-- DEC58 (R175): the whole string is scanned for illegal digits before anything is written (R207). -/
def execDec58 (s : State) : Host.Outcome State Fault Refusal :=
  if s.dlen.toNat > s.params.dcap then .next (s.fail .inputTooLarge)
  else
    let ds := s.cells .dig s.dlen.toNat
    if ds.all legalDigit then
      let k := leadingZeros ds
      match accumulate s.params.nlimb (ds.drop k) (List.replicate s.params.nlimb 0#64) with
      | .error c => .next (s.raiseFatal c)
      | .ok w => .next (s.setNumber k w).storeBe
    else .next (s.fail .badChar)

end Sys2Proof.Machine
end

