-- ==== Sys2Proof/Machine/Dispatch.lean ====
section
/-! DEFINITION. The effect of an accepted command (30_encoding.md R78, step 3), one arm per row of R72. -/

namespace Sys2Proof.Machine

def exec (i : Instr) (s : State) : Host.Outcome State Fault Refusal :=
  match i with
  | .cadd => Sys2Proof.Machine.execCadd s
  | .cmul => Sys2Proof.Machine.execCmul s
  | .divr => Sys2Proof.Machine.execDivr s
  | .bclr => Sys2Proof.Machine.execBclr s
  | .badd => Sys2Proof.Machine.execBadd s
  | .bmul => Sys2Proof.Machine.execBmul s
  | .bdiv => Sys2Proof.Machine.execBdiv s
  | .chunk => Sys2Proof.Machine.execChunk s
  | .ldbe => Sys2Proof.Machine.execLdbe s
  | .stbe => Sys2Proof.Machine.execStbe s
  | .enc58 => Sys2Proof.Machine.execEnc58 s
  | .dec58 => Sys2Proof.Machine.execDec58 s

end Sys2Proof.Machine
end

