-- ==== Sys2Proof/Machine/Port.lean ====
section
/-! DEFINITION. The host port: the seven host actions (20_memory.md R51 to R53), the issue of a command (30_encoding.md
R78) and accesses while halted (20_memory.md R63, 60_exceptions.md R204). -/

namespace Sys2Proof.Machine

/-- The value a read returned goes to the host. -/
def State.answer (s : State) (v : ReadValue) : State := { s with reads := v :: s.reads }

/-- The model's counter moves past an event whose free value was used (log 1). -/
def State.drawn (s : State) : State := { s with draw := s.draw + 1 }

/-- `MemRead(REG, n)` (R52); while halted a register other than `STATUS` and the parameters answers an unspecified
value, drawn anew at each read (R63, log 7). -/
def State.readRegister (s : State) (n : BitVec 16) : State :=
  if s.fatal && (s.regAt n).unspecifiedWhileHalted then
    (s.answer (.reg (Config.freeWord s.draw n.toNat))).drawn
  else s.answer (.reg (s.regValue (s.regAt n)))

/-- `MemRead(BUF, i)` or `MemRead(DIG, i)` (R53): 0 at or above the capacity; while halted a cell answers an unspecified
value, drawn anew at each read (R63, log 7). -/
def State.readCell (s : State) (b : Buffer) (i : BitVec 32) : State :=
  if i.toNat < s.capacity b then
    if s.fatal then (s.answer (.cell (Config.freeByte s.draw b i.toNat))).drawn
    else s.answer (.cell (s.cell b i.toNat))
  else s.answer (.cell 0#8)

/-- `MemWrite(BUF, i, v)` or `MemWrite(DIG, i, v)` (R53): ignored at or above the capacity, and while halted (R63). -/
def State.writeCell (s : State) (b : Buffer) (i : BitVec 32) (v : Byte) : State :=
  if s.fatal then s
  else if i.toNat < s.capacity b then s.setMem b ((s.mem b).splice i.toNat [v])
  else s

/-- A write of the word `v` to `CMD` (R78): ignored while halted; an illegal word sets `ERR` to `E_UNKNOWN` and nothing
else (R73); a legal one runs its command to the end. -/
def issue (v : Word) (s : State) : Host.Outcome State Fault Refusal :=
  if s.fatal then .next s
  else
    match decode v with
    | .error _ => .next (s.fail .unknown)
    | .ok i => exec i s

/-- `MemWrite(REG, n, v)` (R52); every write is ignored while halted (R63). -/
def writeRegister (n : BitVec 16) (v : Word) (s : State) : Host.Outcome State Fault Refusal :=
  match s.regAt n with
  | .cmd => issue v s
  | r => if s.fatal then .next s else .next (s.setReg r v)

/-- The effect of one host action (R51). -/
def perform (a : HostAction) (s : State) : Host.Outcome State Fault Refusal :=
  match a with
  | .readReg n => .next (s.readRegister n)
  | .writeReg n v => writeRegister n v s
  | .readBuf i => .next (s.readCell .buf i)
  | .writeBuf i v => .next (s.writeCell .buf i v)
  | .readDig i => .next (s.readCell .dig i)
  | .writeDig i v => .next (s.writeCell .dig i v)
  | .reset => .next s.resetBlock

/-- Move past the action that is being performed: it leaves the script and the position advances by 1 (10_state.md
R23). -/
def State.advance (s : State) : State := { s with script := s.script.tail, pos := s.pos + 1 }

/-- One action of the host, or none left: the block "does nothing on its own" (70_reset_and_hazards.md R231). -/
def nextAction (s : State) : Host.Outcome State Fault Refusal :=
  match s.script with
  | [] => .next s
  | a :: _ => perform a s.advance

/-- The host's next action becomes the write of a command word to `CMD`; a value above 64 bits is no command word and
changes nothing (log 11). -/
def State.withCommandBits (s : State) (nbits w : Nat) : State :=
  match wordOfTableBits nbits w with
  | some c => { s with script := .writeReg 0#16 c :: s.script }
  | none => s

end Sys2Proof.Machine
end

