-- ==== Sys2Proof/Machine/Step.lean ====
section
/-! DEFINITION. One step of the machine: the host's next action (00_scope.md R11, R13). -/

namespace Sys2Proof.Machine

/-- One step: the next host action of the script, with the engine's work folded into the `CMD` write (R11). With no
action left nothing happens. -/
def step (s : State) : Host.Outcome State Fault Refusal := nextAction s

/-- `s` with the command of the opcode-table bits `w` as the host's very next action: a write of the word to `CMD`
(30_encoding.md R78). It stands for the host that drives the block from outside (log 5). -/
def State.withFetchWord (s : State) (nbits w : Nat) : State := s.withCommandBits nbits w

end Sys2Proof.Machine
end

