-- ==== Sys2Proof/WellFormed.lean ====
section
/-! DEFINITION. Well-formedness: of a command (nothing to check, 30_encoding.md R71) and of an instance's parameters
(00_scope.md R5). -/

namespace Sys2Proof

/-- A command has no operand field (R71), so every one is well formed. -/
def Instr.wf : Instr → Bool
  | .cadd | .cmul | .divr => true
  | .bclr | .badd | .bmul | .bdiv => true
  | .chunk | .ldbe | .stbe | .enc58 | .dec58 => true

/-- The constraints of R5: 2 ≤ NLIMB ≤ 65280, BCAP < 2^32, DCAP < 2^32. -/
def Params.wf (p : Params) : Bool :=
  decide (2 ≤ p.nlimb) && decide (p.nlimb ≤ 65280) && decide (p.bcap < 2 ^ 32) && decide (p.dcap < 2 ^ 32)

end Sys2Proof
end

