-- ==== Sys2Proof/Safety.lean ====
section
/-! DEFINITION. The terms claims are stated in: the end of a run (00_scope.md R13), the invariant of the state, the effect
of a command's end on `STATUS` and on the output buffer, and the numbers the spec defines by a property (R8). -/

namespace Sys2Proof.Machine

/-- The run has ended: no host action is left (R13). -/
def State.RunEnded (s : State) : Prop := s.script = []

/-- The run has ended well: no host action is left and `FATAL` = 0. A state with `FATAL` = 1 has never ended well,
whatever else it holds (R13, 60_exceptions.md R204). -/
def State.EndedWell (s : State) : Prop := s.script = [] ∧ s.fatal = false

/-- The results that the block itself puts in `ERR` (60_exceptions.md R201). -/
def raisedErrs : List ErrCode := [.ok, .inputTooLarge, .badChar, .outputTooSmall, .unknown]

/-- What `STATUS` can hold (10_state.md R29, R201, R202): bits 63:17 are 0; while `FATAL` = 0 the cause is 0 and `ERR` is
a code the block raises; while `FATAL` = 1 `ERR` is 0 and the cause is one of the seven. -/
def State.StatusLegal (s : State) : Prop :=
  (∀ j, 17 ≤ j → s.status.getLsbD j = false) ∧
    ((s.fatal = false ∧ s.fcause = 0#8 ∧ ∃ e ∈ raisedErrs, s.err = e.code) ∨
      (s.fatal = true ∧ s.err = 0#8 ∧ ∃ c : FatalCause, s.fcause = c.code))

/-- The invariant of the model. -/
structure State.Inv (s : State) : Prop where
  /-- The parameters meet the constraints of 00_scope.md R5. -/
  params : s.params.wf = true
  /-- The limb file has NLIMB limbs (10_state.md R21). -/
  limbs : s.w.length = s.params.nlimb
  /-- The cells of each buffer are in canonical form. -/
  memory : ∀ b, (s.mem b).wf
  /-- Only cells below the physical capacity are listed (10_state.md R34, R35). -/
  bounds : ∀ b, ∀ c ∈ s.mem b, c.1 < s.capacity b
  /-- `STATUS` is legal (R29). -/
  status : s.StatusLegal
  /-- The event of the unlisted cells is past. -/
  epoch : s.epoch < s.draw

/-- From `s` to `t`, `ERR` takes the code of `e` and the other bits of `STATUS` stay. -/
def ErrBecomes (s t : State) (e : ErrCode) : Prop :=
  t.err = e.code ∧ ∀ j, 8 ≤ j → t.status.getLsbD j = s.status.getLsbD j

/-- A data error raised before anything was written: only `ERR` changes (60_exceptions.md R210). -/
def FailsOnly (s t : State) (e : ErrCode) : Prop :=
  ErrBecomes s t e ∧ t = { s with status := t.status }

/-- Every cell of both buffers reads as before. -/
def SameCells (s t : State) : Prop := ∀ b i, t.cell b i = s.cell b i

/-- From `s` to `t`, nothing changes but the cells and the length register of one buffer, `STATUS`, and the model's
counter of free values. -/
def OnlyFills (s t : State) : Buffer → Prop
  | .buf => t = { s with buf := t.buf, blen := t.blen, status := t.status, draw := t.draw }
  | .dig => t = { s with dig := t.dig, dlen := t.dlen, status := t.status, draw := t.draw }

/-- The successful end of a command that fills buffer `b` with `out` (43_chunked_converter.md R151): cells
`0 .. total-1` hold `out`, every other cell of either buffer is unchanged, the length register is `total`. -/
def Delivered (s t : State) (b : Buffer) (out : List Byte) : Prop :=
  out.length ≤ s.effectiveCap b ∧ ErrBecomes s t .ok ∧ (t.length b).toNat = out.length ∧
    (∀ i, i < out.length → t.cell b i = out.getD i 0#8) ∧
    (∀ i, out.length ≤ i → t.cell b i = s.cell b i) ∧
    (∀ b', b' ≠ b → ∀ i, t.cell b' i = s.cell b' i) ∧ OnlyFills s t b ∧ t.draw = s.draw

/-- The output-too-small effect on buffer `b` and its `fail` (R151): the length register is 0, the cells below the
effective capacity hold free values of one event, every other cell of either buffer is unchanged. -/
def OutputTooSmall (s t : State) (b : Buffer) : Prop :=
  ErrBecomes s t .outputTooSmall ∧ t.length b = 0#64 ∧
    (∀ i, i < s.effectiveCap b → t.cell b i = Config.freeByte s.draw b i) ∧
    (∀ i, s.effectiveCap b ≤ i → t.cell b i = s.cell b i) ∧
    (∀ b', b' ≠ b → ∀ i, t.cell b' i = s.cell b' i) ∧ OnlyFills s t b

/-- `n` is the least number of digits with `v < base ^ n`: `nbytes(v)` in base 256, `ndigits(v)` in base 58 (R8). -/
def LeastCount (base v n : Nat) : Prop := v < base ^ n ∧ ∀ m, v < base ^ m → n ≤ m

/-- `k` is the number of leading zero cells of a string (43_chunked_converter.md R160, R175). -/
def LeadingZeroCount (cells : List Byte) (k : Nat) : Prop :=
  k ≤ cells.length ∧ (∀ i, i < k → cells.getD i 1#8 = 0#8) ∧ (k = cells.length ∨ cells.getD k 0#8 ≠ 0#8)

/-- The state with the number of a whole-buffer command in it: `W`, `LEN` = NLIMB and `ZCNT` = `k` (R150). -/
def State.withNumber (s : State) (w : List Word) (k : Nat) : State :=
  { s with w := w, len := BitVec.ofNat 64 s.params.nlimb, zcnt := BitVec.ofNat 64 k }

/-- The fatal causes a command can raise (60_exceptions.md R206). -/
def causesOf : Instr → List FatalCause
  | .cadd | .cmul | .bclr | .chunk | .ldbe | .enc58 => []
  | .divr => [.divZero]
  | .badd => [.lenRange, .addShort, .addCarry]
  | .bmul => [.lenRange, .mulEmpty, .mulTop]
  | .bdiv => [.lenRange, .divEmpty, .divZero]
  | .stbe => [.lenRange]
  | .dec58 => [.mulTop]

/-- The results a command can leave in `ERR` when it does not halt (R206). -/
def resultsOf : Instr → List ErrCode
  | .cadd | .cmul | .divr | .bclr | .badd | .bmul | .bdiv => [.ok]
  | .chunk | .stbe => [.ok, .outputTooSmall]
  | .ldbe => [.ok, .inputTooLarge]
  | .enc58 => [.ok, .inputTooLarge, .outputTooSmall]
  | .dec58 => [.ok, .inputTooLarge, .badChar, .outputTooSmall]

/-- The action is a read (20_memory.md R51). -/
def HostAction.isRead : HostAction → Bool
  | .readReg _ | .readBuf _ | .readDig _ => true
  | .writeReg _ _ | .writeBuf _ _ | .writeDig _ _ | .reset => false

/-- The action is a write to `CMD`. -/
def HostAction.isIssue : HostAction → Bool
  | .writeReg n _ => n == 0#16
  | .readReg _ | .readBuf _ | .readDig _ | .writeBuf _ _ | .writeDig _ _ | .reset => false

end Sys2Proof.Machine
end

