-- ==== Sys2Proof/Certificates/Slice0/Obligations.lean ====
section
/-! DEFINITION. The statements about the model, for the provers. Each docstring names the rules of spec/ it formalises. -/

open Sys2Proof Sys2Proof.Machine

/-! ## Encoding and issue -/

/-- R70, R72: the encoder and the decoder agree, and no other word decodes to a command. -/
def Obligations.CommandWordsRoundTrip : Prop :=
  (∀ i : Instr, decode (encode i) = .ok i) ∧ ∀ (v : Word) (i : Instr), decode v = .ok i → v = encode i

/-- R72, R73: words written out from the opcode map decode to their commands, and two illegal ones are rejected. -/
def Obligations.OpcodeMapWordsDecode : Prop :=
  decode 0x0000000000000001#64 = .ok .cadd ∧ decode 0x0000000000000013#64 = .ok .bdiv ∧
    decode 0x0000000000000024#64 = .ok .dec58 ∧ decode 0x0000000000000101#64 = .error .upperBitsSet ∧
    decode 0x0000000000000025#64 = .error (.unknownOpcode 0x25#8)

/-- R73: which words are illegal, and the one effect of an illegal word issued while `FATAL` = 0. -/
def Obligations.IllegalWordSetsErrUnknownOnly : Prop :=
  ∀ v : Word,
    ((∃ e, decode v = .error e) ↔
      (v.extractLsb' 8 56 ≠ 0#56 ∨
        v.extractLsb' 0 8 ∉ [0x01#8, 0x02#8, 0x03#8, 0x10#8, 0x11#8, 0x12#8, 0x13#8, 0x20#8, 0x21#8, 0x22#8, 0x23#8, 0x24#8])) ∧
    ∀ (s : State) (rest : List HostAction), s.fatal = false → s.script = .writeReg 0#16 v :: rest →
      (∃ e, decode v = .error e) →
        ∃ t, step s = .next t ∧ t.err = 0xFF#8 ∧ t.fatal = false ∧
          (∀ j, 8 ≤ j → t.status.getLsbD j = s.status.getLsbD j) ∧
          t = { s with script := rest, pos := s.pos + 1, status := t.status }

/-- R78: a write to `CMD` does nothing while halted, sets `ERR` to 0xFF and nothing else on an illegal word, and else runs
the decoded command. The step adds to it only that the action leaves the script and the position advances (R23). -/
def Obligations.StepRunsTheDecodedCommand : Prop :=
  ∀ (s s' : State) (v : Word) (rest : List HostAction), s.script = .writeReg 0#16 v :: rest →
    s' = { s with script := rest, pos := s.pos + 1 } →
    (s.fatal = true → step s = .next s') ∧
    (s.fatal = false → ∀ e, decode v = .error e → ∃ t, step s = .next t ∧ FailsOnly s' t .unknown) ∧
    (s.fatal = false → ∀ i, decode v = .ok i → step s = exec i s')

/-- How the host places one command (R51, R78, log 5): after `withFetchWord` the very next step runs it. -/
def Obligations.FetchedWordRunsNext : Prop :=
  ∀ (s : State) (i : Instr), s.fatal = false →
    step (s.withFetchWord 64 (encode i).toNat) = exec i { s with pos := s.pos + 1 }

/-- R51, R62: every host action is allowed at any time. That every command and every step answers a next state, with no
fault and no refusal (log 9) and with a fatal halt as a next state (log 6), is DEDUCED: the model's choice. -/
def Obligations.EveryActionIsAnswered : Prop :=
  (∀ (i : Instr) (s : State), ∃ t, exec i s = .next t) ∧ ∀ s : State, ∃ t, step s = .next t

/-- R23, R13: every action advances the position by 1, no command changes it otherwise, and a fatal halt does not stop it.
That the actions to come stand in State as a script which the action leaves, and that with no action left a step changes
nothing, is the model's choice (log 5). -/
def Obligations.EveryActionAdvancesThePosition : Prop :=
  ∀ s t : State, step s = .next t →
    (∀ a rest, s.script = a :: rest → t.pos = s.pos + 1 ∧ t.script = rest) ∧ (s.script = [] → t = s)

/-! ## Scalar primitives -/

/-- R102: CADD. -/
def Obligations.CaddWritesSumAndCarry : Prop :=
  decode 0x0000000000000001#64 = .ok .cadd ∧
  ∀ s : State, ∃ t, exec .cadd s = .next t ∧
    t.r0.toNat = (s.opa.toNat + s.opb.toNat) % 2 ^ 64 ∧ t.r1.toNat = (s.opa.toNat + s.opb.toNat) / 2 ^ 64 ∧
    t.r1.toNat ≤ 1 ∧ ErrBecomes s t .ok ∧ SameCells s t ∧
    t = { s with r0 := t.r0, r1 := t.r1, status := t.status }

/-- R104: CMUL. -/
def Obligations.CmulWritesLowAndHighHalf : Prop :=
  decode 0x0000000000000002#64 = .ok .cmul ∧
  ∀ s : State, ∃ t, exec .cmul s = .next t ∧
    t.r0.toNat = (s.opa.toNat * s.opb.toNat + s.opc.toNat) % 2 ^ 64 ∧
    t.r0.toNat + t.r1.toNat * 2 ^ 64 = s.opa.toNat * s.opb.toNat + s.opc.toNat ∧
    ErrBecomes s t .ok ∧ SameCells s t ∧
    t = { s with r0 := t.r0, r1 := t.r1, status := t.status }

/-- R106: DIVR, with the fatal halt on a zero divisor. -/
def Obligations.DivrWritesQuotientAndRemainder : Prop :=
  decode 0x0000000000000003#64 = .ok .divr ∧
  ∀ s : State,
    (s.opb = 0#64 → exec .divr s = .next (s.raiseFatal .divZero)) ∧
    (s.opb ≠ 0#64 → ∃ t, exec .divr s = .next t ∧
      t.r0.toNat = s.opa.toNat / s.opb.toNat ∧ t.r1.toNat = s.opa.toNat % s.opb.toNat ∧
      ErrBecomes s t .ok ∧ SameCells s t ∧
      t = { s with r0 := t.r0, r1 := t.r1, status := t.status })

/-- R107: the laws of the scalar family. -/
def Obligations.ScalarPrimitivesObeyTheirLaws : Prop :=
  ∀ a b c : Word,
    carryingAdd a b = carryingAdd b a ∧ carryingMul a b c = carryingMul b a c ∧
    carryingMul a 1#64 0#64 = (a, 0#64) ∧
    (a.toNat * b.toNat + c.toNat < 2 ^ 64 → (carryingMul a b c).2 = 0#64) ∧
    (b ≠ 0#64 → carryingMul (divRem a b).1 b (divRem a b).2 = (a, 0#64))

/-! ## Bounded BigInt engine -/

/-- R122: BCLR clears every limb and changes nothing else but `ERR`. -/
def Obligations.BclrClearsEveryLimb : Prop :=
  decode 0x0000000000000010#64 = .ok .bclr ∧
  ∀ s : State, ∃ t, exec .bclr s = .next t ∧
    t.w.length = s.params.nlimb ∧ (∀ i, t.limb i = 0#64) ∧ val t.w = 0 ∧
    ErrBecomes s t .ok ∧ SameCells s t ∧ t = { s with w := t.w, status := t.status }

/-- R121: the length range check comes first in BADD, BMUL, BDIV and STBE. -/
def Obligations.LenAboveNlimbHaltsFirst : Prop :=
  ∀ (s : State) (i : Instr), i ∈ [Instr.badd, .bmul, .bdiv, .stbe] → s.len.toNat > s.params.nlimb →
    exec i s = .next (s.raiseFatal .lenRange)

/-- R127: the law of inplace_add. -/
def Obligations.InplaceAddAddsToTheValue : Prop :=
  ∀ (w : List Word) (n : Nat) (s : Word), 2 ≤ n → n ≤ w.length →
    (val (w.take n) + s.toNat < 2 ^ (64 * n) →
      ∃ w', inplaceAdd w n s = .ok w' ∧ val (w'.take n) = val (w.take n) + s.toNat) ∧
    (2 ^ (64 * n) ≤ val (w.take n) + s.toNat →
      inplaceAdd w n s = .error .addCarry ∧ (∀ i, 1 ≤ i → i < n → w.getD i 0#64 = 0xFFFFFFFFFFFFFFFF#64) ∧
        2 ^ 64 ≤ (w.getD 0 0#64).toNat + s.toNat)

/-- R126: BADD with every outcome in test order; limbs at `LEN` and above stay. -/
def Obligations.BaddAddsOpaToTheActiveLimbs : Prop :=
  decode 0x0000000000000011#64 = .ok .badd ∧
  ∀ s : State, s.w.length = s.params.nlimb →
    (s.len.toNat > s.params.nlimb → exec .badd s = .next (s.raiseFatal .lenRange)) ∧
    (s.len.toNat ≤ s.params.nlimb → s.len.toNat < 2 → exec .badd s = .next (s.raiseFatal .addShort)) ∧
    (s.len.toNat ≤ s.params.nlimb → 2 ≤ s.len.toNat → 2 ^ (64 * s.len.toNat) ≤ val s.active + s.opa.toNat →
      exec .badd s = .next (s.raiseFatal .addCarry)) ∧
    (s.len.toNat ≤ s.params.nlimb → 2 ≤ s.len.toNat → val s.active + s.opa.toNat < 2 ^ (64 * s.len.toNat) →
      ∃ t, exec .badd s = .next t ∧ val t.active = val s.active + s.opa.toNat ∧
        t.w.length = s.w.length ∧ t.w.drop s.len.toNat = s.w.drop s.len.toNat ∧
        ErrBecomes s t .ok ∧ SameCells s t ∧ t = { s with w := t.w, status := t.status })

/-- R133: the law of inplace_mul. -/
def Obligations.InplaceMulMultipliesTheValue : Prop :=
  ∀ (w : List Word) (n : Nat) (s : Word), 1 ≤ n → n ≤ w.length → w.getD (n - 1) 0#64 = 0#64 →
    val (w.take n) < 2 ^ (64 * (n - 1)) ∧
    ∃ w', inplaceMul w n s = .ok w' ∧ val (w'.take n) = val (w.take n) * s.toNat

/-- R132: BMUL with every outcome in test order; limbs at `LEN` and above stay. -/
def Obligations.BmulMultipliesTheActiveLimbs : Prop :=
  decode 0x0000000000000012#64 = .ok .bmul ∧
  ∀ s : State, s.w.length = s.params.nlimb →
    (s.len.toNat > s.params.nlimb → exec .bmul s = .next (s.raiseFatal .lenRange)) ∧
    (s.len.toNat = 0 → exec .bmul s = .next (s.raiseFatal .mulEmpty)) ∧
    (s.len.toNat ≤ s.params.nlimb → 1 ≤ s.len.toNat → s.limb (s.len.toNat - 1) ≠ 0#64 →
      exec .bmul s = .next (s.raiseFatal .mulTop)) ∧
    (s.len.toNat ≤ s.params.nlimb → 1 ≤ s.len.toNat → s.limb (s.len.toNat - 1) = 0#64 →
      ∃ t, exec .bmul s = .next t ∧ val t.active = val s.active * s.opa.toNat ∧
        t.w.length = s.w.length ∧ t.w.drop s.len.toNat = s.w.drop s.len.toNat ∧
        ErrBecomes s t .ok ∧ SameCells s t ∧ t = { s with w := t.w, status := t.status })

/-- R139 (its first sentence): the law of div_rem_scalar. -/
def Obligations.DivRemScalarDividesTheValue : Prop :=
  ∀ (w : List Word) (n : Nat) (d : Word), 1 ≤ n → n ≤ w.length → d ≠ 0#64 →
    ∃ w' r, divRemScalar w n d = .ok (w', r) ∧ r.toNat = val (w.take n) % d.toNat ∧
      val (w'.take n) = val (w.take n) / d.toNat ∧ w'.drop n = w.drop n

/-- R138: BDIV with every outcome in test order; limbs at `LEN` and above stay, `R0` stays. -/
def Obligations.BdivDividesTheActiveLimbs : Prop :=
  decode 0x0000000000000013#64 = .ok .bdiv ∧
  ∀ s : State, s.w.length = s.params.nlimb →
    (s.len.toNat > s.params.nlimb → exec .bdiv s = .next (s.raiseFatal .lenRange)) ∧
    (s.len.toNat = 0 → exec .bdiv s = .next (s.raiseFatal .divEmpty)) ∧
    (s.len.toNat ≤ s.params.nlimb → 1 ≤ s.len.toNat → s.opa = 0#64 →
      exec .bdiv s = .next (s.raiseFatal .divZero)) ∧
    (s.len.toNat ≤ s.params.nlimb → 1 ≤ s.len.toNat → s.opa ≠ 0#64 →
      ∃ t, exec .bdiv s = .next t ∧ val t.active = val s.active / s.opa.toNat ∧
        t.r1.toNat = val s.active % s.opa.toNat ∧
        t.w.length = s.w.length ∧ t.w.drop s.len.toNat = s.w.drop s.len.toNat ∧
        ErrBecomes s t .ok ∧ SameCells s t ∧ t = { s with w := t.w, r1 := t.r1, status := t.status })

/-- R242 (its last sentence): after a BMUL that completed, a BADD of any scalar below the multiplier completes. -/
def Obligations.AddBelowTheMultiplierNeverOverflows : Prop :=
  ∀ (s t : State) (a : Word), s.w.length = s.params.nlimb → 2 ≤ s.len.toNat → s.fatal = false →
    exec .bmul s = .next t → t.fatal = false → a.toNat < s.opa.toNat →
    ∃ u, exec .badd { t with opa := a } = .next u ∧ u.fatal = false ∧
      val u.active = val s.active * s.opa.toNat + a.toNat

/-! ## Chunked converter -/

/-- R155: encode_chunk gives the ten low base-58 digits, the most significant first. -/
def Obligations.EncodeChunkGivesTheTenLowDigits : Prop :=
  ∀ v : Word, (encodeChunk v).length = 10 ∧
    (∀ j, j ≤ 9 → ((encodeChunk v).getD (9 - j) 0#8).toNat = (v.toNat / 58 ^ j) % 58) ∧
    b58 (encodeChunk v) = v.toNat % 58 ^ 10

/-- R156: CHUNK. That the
unspecified cells are free values of one event is the model's form (logs 1 and 8). -/
def Obligations.ChunkDeliversTenDigits : Prop :=
  decode 0x0000000000000020#64 = .ok .chunk ∧
  ∀ s : State,
    (10 ≤ s.effectiveCap .dig → ∃ t, exec .chunk s = .next t ∧ Delivered s t .dig (encodeChunk s.opa)) ∧
    (s.effectiveCap .dig < 10 → ∃ t, exec .chunk s = .next t ∧ OutputTooSmall s t .dig)

/-- R161, R160: LDBE loads the big-endian value of `BUF[0..BLEN-1]` into all NLIMB limbs and counts its leading zeros, or
fails with nothing changed but `ERR`. -/
def Obligations.LdbeLoadsTheBigEndianValue : Prop :=
  decode 0x0000000000000021#64 = .ok .ldbe ∧
  ∀ (s : State) (k : Nat), LeadingZeroCount (s.cells .buf s.blen.toNat) k →
    (s.blen.toNat > s.params.bcap → ∃ t, exec .ldbe s = .next t ∧ FailsOnly s t .inputTooLarge) ∧
    (s.blen.toNat ≤ s.params.bcap → s.blen.toNat - k > 8 * s.params.nlimb →
      ∃ t, exec .ldbe s = .next t ∧ FailsOnly s t .inputTooLarge) ∧
    (s.blen.toNat ≤ s.params.bcap → s.blen.toNat - k ≤ 8 * s.params.nlimb →
      ∃ t, exec .ldbe s = .next t ∧ t.w.length = s.params.nlimb ∧
        val t.w = be (s.cells .buf s.blen.toNat) ∧ ErrBecomes s t .ok ∧ SameCells s t ∧
        t = { s.withNumber t.w k with status := t.status })

/-- R55: the byte at distance `j` from the end of the string is bits `8*(j mod 8) + 7 : 8*(j mod 8)` of limb
`W[j div 8]`. -/
def Obligations.LdbePlacesEveryByteInItsLimb : Prop :=
  ∀ (s t : State) (k j : Nat), s.fatal = false → LeadingZeroCount (s.cells .buf s.blen.toNat) k →
    exec .ldbe s = .next t → t.err = ErrCode.ok.code → j < s.blen.toNat - k →
    (t.limb (j / 8)).extractLsb' (8 * (j % 8)) 8 = s.cell .buf (s.blen.toNat - 1 - j)

/-- R166, R165: STBE writes `ZCNT` zero bytes and the shortest big-endian byte string of `val(W, LEN)`. That the
unspecified cells are free values of one event is the model's form (logs 1 and 8). -/
def Obligations.StbeStoresTheShortestByteString : Prop :=
  decode 0x0000000000000022#64 = .ok .stbe ∧
  ∀ s : State,
    (s.len.toNat > s.params.nlimb → exec .stbe s = .next (s.raiseFatal .lenRange)) ∧
    (s.len.toNat ≤ s.params.nlimb → ∃ bs, be bs = val s.active ∧ LeastCount 256 (val s.active) bs.length ∧
      (s.zcnt.toNat + bs.length ≤ s.effectiveCap .buf →
        ∃ t, exec .stbe s = .next t ∧ Delivered s t .buf (List.replicate s.zcnt.toNat 0#8 ++ bs)) ∧
      (s.effectiveCap .buf < s.zcnt.toNat + bs.length →
        ∃ t, exec .stbe s = .next t ∧ OutputTooSmall s t .buf))

/-- R170, R171: ENC58 gives the leading zeros and the base-58 digits of the value, most significant first. That the
unspecified cells are free values of one event is the model's form (logs 1 and 8). -/
def Obligations.Enc58DeliversTheBase58Digits : Prop :=
  decode 0x0000000000000023#64 = .ok .enc58 ∧
  ∀ (s : State) (k : Nat), LeadingZeroCount (s.cells .buf s.blen.toNat) k →
    (s.blen.toNat > s.params.bcap ∨ s.blen.toNat - k > 8 * s.params.nlimb →
      ∃ t, exec .enc58 s = .next t ∧ FailsOnly s t .inputTooLarge) ∧
    (s.blen.toNat ≤ s.params.bcap → s.blen.toNat - k ≤ 8 * s.params.nlimb →
      ∃ ds, b58 ds = be (s.cells .buf s.blen.toNat) ∧ (∀ d ∈ ds, d.toNat < 58) ∧
        LeastCount 58 (be (s.cells .buf s.blen.toNat)) ds.length ∧
        (k + ds.length ≤ s.effectiveCap .dig →
          ∃ t, exec .enc58 s = .next t ∧
            Delivered (s.withNumber (List.replicate s.params.nlimb 0#64) k) t .dig (List.replicate k 0#8 ++ ds)) ∧
        (s.effectiveCap .dig < k + ds.length →
          ∃ t, exec .enc58 s = .next t ∧
            OutputTooSmall (s.withNumber (List.replicate s.params.nlimb 0#64) k) t .dig))

/-- R171, R139: the loop of ENC58 makes one pass of the division for each ten digits of the value, and leaves 0.
The bound of two passes for each limb is the model's (log 10). -/
def Obligations.EncodeLoopMakesOnePassPerTenDigits : Prop :=
  ∀ (w : List Word) (n m : Nat), n ≤ w.length → LeastCount 58 (val (w.take n)) m →
    ∃ chunks w', divideOut n (2 * n) w = .ok (chunks, w') ∧ val (w'.take n) = 0 ∧
      chunks.length = (m + 9) / 10 ∧ ∀ c ∈ chunks, c.toNat < 58 ^ 10

/-- R175, R176: DEC58 gives the leading zeros and the shortest bytes of the value; it halts exactly when the value of all
significant digits but the last reaches 2^(64 * (NLIMB - 1)). That the
unspecified cells are free values of one event is the model's form (logs 1 and 8). -/
def Obligations.Dec58DeliversTheBytes : Prop :=
  decode 0x0000000000000024#64 = .ok .dec58 ∧
  ∀ (s : State) (ds : List Byte) (k : Nat), s.params.wf = true → ds = s.cells .dig s.dlen.toNat →
    LeadingZeroCount ds k →
    (s.dlen.toNat > s.params.dcap → ∃ t, exec .dec58 s = .next t ∧ FailsOnly s t .inputTooLarge) ∧
    (s.dlen.toNat ≤ s.params.dcap → (∃ d ∈ ds, 58 ≤ d.toNat) →
      ∃ t, exec .dec58 s = .next t ∧ FailsOnly s t .badChar) ∧
    (s.dlen.toNat ≤ s.params.dcap → (∀ d ∈ ds, d.toNat < 58) → 2 ≤ ds.length - k →
      2 ^ (64 * (s.params.nlimb - 1)) ≤ b58 (ds.drop k).dropLast →
      exec .dec58 s = .next (s.raiseFatal .mulTop)) ∧
    (s.dlen.toNat ≤ s.params.dcap → (∀ d ∈ ds, d.toNat < 58) →
      (ds.length - k < 2 ∨ b58 (ds.drop k).dropLast < 2 ^ (64 * (s.params.nlimb - 1))) →
      ∃ w bs, w.length = s.params.nlimb ∧ val w = b58 ds ∧ be bs = b58 ds ∧ LeastCount 256 (b58 ds) bs.length ∧
        (k + bs.length ≤ s.effectiveCap .buf →
          ∃ t, exec .dec58 s = .next t ∧ Delivered (s.withNumber w k) t .buf (List.replicate k 0#8 ++ bs)) ∧
        (s.effectiveCap .buf < k + bs.length →
          ∃ t, exec .dec58 s = .next t ∧ OutputTooSmall (s.withNumber w k) t .buf))

/-- R207: an illegal digit inside the string wins over every other outcome but `DLEN > DCAP`. -/
def Obligations.IllegalDigitWins : Prop :=
  ∀ (s : State) (i : Nat), s.dlen.toNat ≤ s.params.dcap → i < s.dlen.toNat → 58 ≤ (s.cell .dig i).toNat →
    ∃ t, exec .dec58 s = .next t ∧ FailsOnly s t .badChar

/-- R239: a digit string short enough never halts the block. -/
def Obligations.BoundedDigitStringNeverHalts : Prop :=
  ∀ (s : State) (k : Nat), s.params.wf = true → s.fatal = false →
    LeadingZeroCount (s.cells .dig s.dlen.toNat) k →
    58 ^ (s.dlen.toNat - k - 1) ≤ 2 ^ (64 * (s.params.nlimb - 1)) →
    ∃ t, exec .dec58 s = .next t ∧ t.fatal = false

/-- R152: exactly as many leading zeros come out as went in, in both directions, and `ZCNT` holds their number. -/
def Obligations.LeadingZerosArePreserved : Prop :=
  (∀ (s t : State) (k : Nat), s.fatal = false → LeadingZeroCount (s.cells .buf s.blen.toNat) k →
    exec .enc58 s = .next t → t.err = ErrCode.ok.code →
    LeadingZeroCount (t.cells .dig t.dlen.toNat) k ∧ t.zcnt.toNat = k) ∧
  (∀ (s t : State) (k : Nat), s.fatal = false → LeadingZeroCount (s.cells .dig s.dlen.toNat) k →
    exec .dec58 s = .next t → t.fatal = false → t.err = ErrCode.ok.code →
    LeadingZeroCount (t.cells .buf t.blen.toNat) k ∧ t.zcnt.toNat = k)

/-- R180 (a): encoding and then decoding gives the byte string back. -/
def Obligations.DecodeUndoesEncode : Prop :=
  ∀ (s : State) (k n : Nat), s.params.wf = true → s.blen.toNat ≤ s.params.bcap →
    LeadingZeroCount (s.cells .buf s.blen.toNat) k → s.blen.toNat - k ≤ 8 * (s.params.nlimb - 1) →
    LeastCount 58 (be (s.cells .buf s.blen.toNat)) n → k + n ≤ s.effectiveCap .dig → s.blen.toNat ≤ s.ocap.toNat →
    ∃ t u, exec .enc58 s = .next t ∧ exec .dec58 t = .next u ∧ u.fatal = s.fatal ∧ t.err = ErrCode.ok.code ∧
      u.err = ErrCode.ok.code ∧ u.blen = s.blen ∧
      u.cells .buf s.blen.toNat = s.cells .buf s.blen.toNat

/-- R180 (b): decoding a legal digit string and then encoding gives the digit string back. -/
def Obligations.EncodeUndoesDecode : Prop :=
  ∀ s t : State, s.params.wf = true → s.fatal = false → s.dlen.toNat ≤ s.ocap.toNat →
    exec .dec58 s = .next t → t.fatal = false → t.err = ErrCode.ok.code →
    ∃ u, exec .enc58 t = .next u ∧ u.fatal = false ∧ u.err = ErrCode.ok.code ∧ u.dlen = s.dlen ∧
      u.cells .dig s.dlen.toNat = s.cells .dig s.dlen.toNat

/-- R210 (its example): after a DEC58 that failed for want of output space, raising `OCAP` and issuing STBE gives the bytes
without decoding again. -/
def Obligations.StbeRetriesAfterOutputTooSmall : Prop :=
  ∀ (s t : State) (k : Nat) (cap : Word), s.params.wf = true → s.fatal = false →
    LeadingZeroCount (s.cells .dig s.dlen.toNat) k → exec .dec58 s = .next t →
    t.fatal = false → t.err = ErrCode.outputTooSmall.code →
    ∃ bs, be bs = b58 (s.cells .dig s.dlen.toNat) ∧ LeastCount 256 (b58 (s.cells .dig s.dlen.toNat)) bs.length ∧
      (k + bs.length ≤ min cap.toNat s.params.bcap →
        ∃ u, exec .stbe { t with ocap := cap } = .next u ∧
          Delivered { t with ocap := cap } u .buf (List.replicate k 0#8 ++ bs))

/-- R36, R150: LDBE, ENC58 and DEC58 do not depend on the previous contents of `W`, `LEN` and `ZCNT`: the outcome is the
same, and so is the whole next state unless the command failed before it wrote anything. -/
def Obligations.WholeBufferCommandsIgnoreTheOldNumber : Prop :=
  ∀ (s : State) (i : Instr) (w : List Word) (len zcnt : Word), i ∈ [Instr.ldbe, .enc58, .dec58] →
    ∃ t t', exec i s = .next t ∧ exec i { s with w := w, len := len, zcnt := zcnt } = .next t' ∧
      t'.status = t.status ∧
      (t.err ≠ ErrCode.inputTooLarge.code → t.err ≠ ErrCode.badChar.code → t' = t)

/-! ## Failures -/

/-- R206, R200: a command ends in one of the ways its row of the table lists, and in no other. -/
def Obligations.CommandsEndOnlyAsTheTableLists : Prop :=
  ∀ (i : Instr) (s t : State), s.params.wf = true → s.w.length = s.params.nlimb → s.StatusLegal → s.fatal = false →
    exec i s = .next t →
    (t.fatal = false ∧ t.fcause = 0#8 ∧ ∃ e ∈ resultsOf i, t.err = e.code) ∨
    (t.fatal = true ∧ t.err = 0#8 ∧ ∃ c ∈ causesOf i, t = s.raiseFatal c ∧ t.fcause = c.code)

/-- R210 (its fourth sentence): E_INPUT_TOO_LARGE and E_BAD_CHAR are raised before the command has written anything, so
nothing but `ERR` changes, and the other bits of `STATUS` stay. -/
def Obligations.EarlyDataErrorsChangeOnlyErr : Prop :=
  ∀ (i : Instr) (s t : State), s.fatal = false → exec i s = .next t → t.fatal = false →
    (t.err = ErrCode.inputTooLarge.code → FailsOnly s t .inputTooLarge) ∧
    (t.err = ErrCode.badChar.code → FailsOnly s t .badChar)

/-- R203: what fatal entry leaves. `STATUS` is exactly 0x10000 + 256 * cause; each of the ten registers, each limb and each
cell that R203 names holds a free value of this event, so nothing of the old state survives but the parameters and the
host's side. The free values and their numbering (log 1) and the halt as a next state (log 6) are the model's form. -/
def Obligations.FatalEntryKeepsNothingButStatus : Prop :=
  ∀ (s : State) (c : FatalCause),
    (s.raiseFatal c).status.toNat = 0x10000 + 256 * c.code.toNat ∧ (s.raiseFatal c).fatal = true ∧
    (s.raiseFatal c).fcause = c.code ∧ (s.raiseFatal c).err = 0#8 ∧
    (s.raiseFatal c).opa = Config.freeWord s.draw 0x02 ∧ (s.raiseFatal c).opb = Config.freeWord s.draw 0x03 ∧
    (s.raiseFatal c).opc = Config.freeWord s.draw 0x04 ∧ (s.raiseFatal c).r0 = Config.freeWord s.draw 0x05 ∧
    (s.raiseFatal c).r1 = Config.freeWord s.draw 0x06 ∧ (s.raiseFatal c).len = Config.freeWord s.draw 0x07 ∧
    (s.raiseFatal c).blen = Config.freeWord s.draw 0x08 ∧ (s.raiseFatal c).dlen = Config.freeWord s.draw 0x09 ∧
    (s.raiseFatal c).zcnt = Config.freeWord s.draw 0x0A ∧ (s.raiseFatal c).ocap = Config.freeWord s.draw 0x0B ∧
    (s.raiseFatal c).w.length = s.params.nlimb ∧
    (∀ i, i < s.params.nlimb → (s.raiseFatal c).limb i = Config.freeWord s.draw (0x100 + i)) ∧
    (∀ b i, (s.raiseFatal c).cell b i = Config.freeByte s.draw b i) ∧
    (s.raiseFatal c).params = s.params ∧ (s.raiseFatal c).script = s.script ∧ (s.raiseFatal c).pos = s.pos ∧
    (s.raiseFatal c).reads = s.reads ∧
    ∀ s' : State, s'.params = s.params → s'.draw = s.draw → s'.script = s.script → s'.pos = s.pos →
      s'.reads = s.reads → s'.raiseFatal c = s.raiseFatal c

/-- R204: while halted every action but `Reset` leaves the block as it is: `STATUS` keeps its value, no command runs, no
write has an effect. Only the host's side and the model's counter move. -/
def Obligations.HaltedBlockIgnoresEveryAction : Prop :=
  ∀ (s : State) (a : HostAction) (rest : List HostAction), s.fatal = true → s.script = a :: rest → a ≠ .reset →
    ∃ t, step s = .next t ∧
      t = { s with script := rest, pos := s.pos + 1, reads := t.reads, draw := t.draw } ∧
      (a.isRead = false → t.reads = s.reads ∧ t.draw = s.draw)

/-- R63: what reads return while halted. `STATUS` and the parameters answer; every other valid register and every cell
answers an unspecified value; that it is drawn anew at each read, and that `CMD`, a reserved number and an index at or above
the capacity answer 0 as they do when not halted, is the model's choice (log 7). -/
def Obligations.HaltedReadsAnswerUnspecifiedValues : Prop :=
  ∀ (s : State) (rest : List HostAction), s.fatal = true →
    (∀ n : BitVec 16, s.script = .readReg n :: rest → ∃ t v, step s = .next t ∧ t.reads = .reg v :: s.reads ∧
      (n = 0x0001#16 → v = s.status) ∧ (n = 0x000C#16 → v.toNat = s.params.nlimb % 2 ^ 64) ∧
      (n = 0x000D#16 → v.toNat = s.params.bcap % 2 ^ 64) ∧ (n = 0x000E#16 → v.toNat = s.params.dcap % 2 ^ 64) ∧
      (0x0002 ≤ n.toNat ∧ n.toNat ≤ 0x000B ∨ 0x0100 ≤ n.toNat ∧ n.toNat < 0x0100 + s.params.nlimb →
        v = Config.freeWord s.draw n.toNat ∧ t.draw = s.draw + 1) ∧
      (n = 0x0000#16 ∨ 0x000F ≤ n.toNat ∧ n.toNat ≤ 0x00FF ∨ 0x0100 + s.params.nlimb ≤ n.toNat → v = 0#64)) ∧
    (∀ i : BitVec 32, s.script = .readBuf i :: rest → ∃ t v, step s = .next t ∧ t.reads = .cell v :: s.reads ∧
      (i.toNat < s.params.bcap → v = Config.freeByte s.draw .buf i.toNat ∧ t.draw = s.draw + 1) ∧
      (s.params.bcap ≤ i.toNat → v = 0#8)) ∧
    (∀ i : BitVec 32, s.script = .readDig i :: rest → ∃ t v, step s = .next t ∧ t.reads = .cell v :: s.reads ∧
      (i.toNat < s.params.dcap → v = Config.freeByte s.draw .dig i.toNat ∧ t.draw = s.draw + 1) ∧
      (s.params.dcap ≤ i.toNat → v = 0#8))

/-- R205: `Reset` is the only way out of a fatal halt. -/
def Obligations.OnlyResetLeavesTheHalt : Prop :=
  ∀ s t : State, s.fatal = true → step s = .next t → t.fatal = false → ∃ rest, s.script = .reset :: rest

/-! ## Reset -/

/-- R230, R37, R232: `Reset` in any state, halted or not. The free values are the model's form (logs 1 to 3). -/
def Obligations.ResetPutsEveryResetValue : Prop :=
  ∀ (s : State) (rest : List HostAction), s.script = .reset :: rest →
    ∃ t, step s = .next t ∧ t.status = 0#64 ∧ t.fatal = false ∧ t.opa = 0#64 ∧ t.opb = 0#64 ∧ t.opc = 0#64 ∧
      t.r0 = 0#64 ∧ t.r1 = 0#64 ∧ t.len = 0#64 ∧ t.blen = 0#64 ∧ t.dlen = 0#64 ∧ t.zcnt = 0#64 ∧
      t.ocap.toNat = 2 ^ 64 - 1 ∧ t.params = s.params ∧
      (∀ i, i < s.params.nlimb → t.limb i = Config.freeWord s.draw (0x100 + i)) ∧
      (∀ b i, t.cell b i = Config.freeByte s.draw b i) ∧
      t.script = rest ∧ t.pos = s.pos + 1 ∧ t.reads = s.reads

/-- R37: the reset state meets the invariant, for every instance that R5 allows, and every register but the limbs holds its
reset value. The instance that `State.reset` stands for is the model's choice (log 4). -/
def Obligations.ResetMeetsTheInvariant : Prop :=
  State.reset.Inv ∧ (∀ (p : Params) (e : Nat), p.wf = true → (State.resetAt p e).Inv) ∧
    ∀ (p : Params) (e : Nat), (State.resetAt p e).status = 0#64 ∧ (State.resetAt p e).opa = 0#64 ∧
      (State.resetAt p e).opb = 0#64 ∧ (State.resetAt p e).opc = 0#64 ∧ (State.resetAt p e).r0 = 0#64 ∧
      (State.resetAt p e).r1 = 0#64 ∧ (State.resetAt p e).len = 0#64 ∧ (State.resetAt p e).blen = 0#64 ∧
      (State.resetAt p e).dlen = 0#64 ∧ (State.resetAt p e).zcnt = 0#64 ∧
      (State.resetAt p e).ocap.toNat = 2 ^ 64 - 1 ∧ (State.resetAt p e).params = p

/-! ## The machine as a whole -/

/-- R21, R29, R34, R35, R5: every step keeps the invariant: the limb file has NLIMB limbs, the buffers list only cells
that exist, in canonical form, `STATUS` holds only values its layout allows, the parameters stay legal. -/
def Obligations.EveryStepKeepsTheInvariant : Prop :=
  ∀ s t : State, s.Inv → step s = .next t → t.Inv

/-- R20, R24, R25, R28: what a command that does not halt can write: a register or buffer that changed names the commands
that write it. -/
def Obligations.CommandsWriteOnlyTheirRegisters : Prop :=
  ∀ (i : Instr) (s t : State), s.fatal = false → exec i s = .next t → t.fatal = false →
    t.opa = s.opa ∧ t.opb = s.opb ∧ t.opc = s.opc ∧ t.ocap = s.ocap ∧ t.params = s.params ∧
    t.script = s.script ∧ t.pos = s.pos ∧ t.reads = s.reads ∧ t.epoch = s.epoch ∧
    (t.w ≠ s.w → i ∈ [Instr.bclr, .badd, .bmul, .bdiv, .ldbe, .enc58, .dec58]) ∧
    (t.len ≠ s.len → i ∈ [Instr.ldbe, .enc58, .dec58]) ∧
    (t.zcnt ≠ s.zcnt → i ∈ [Instr.ldbe, .enc58, .dec58]) ∧
    (t.r0 ≠ s.r0 → i ∈ [Instr.cadd, .cmul, .divr]) ∧
    (t.r1 ≠ s.r1 → i ∈ [Instr.cadd, .cmul, .divr, .bdiv]) ∧
    (t.blen ≠ s.blen → i ∈ [Instr.stbe, .dec58]) ∧
    (t.dlen ≠ s.dlen → i ∈ [Instr.chunk, .enc58]) ∧
    ((∃ j, t.cell .buf j ≠ s.cell .buf j) → i ∈ [Instr.stbe, .dec58]) ∧
    ((∃ j, t.cell .dig j ≠ s.cell .dig j) → i ∈ [Instr.chunk, .enc58])

/-- R29, R60: only a command or `Reset` changes `STATUS`; reading it does not clear it. -/
def Obligations.StatusChangesOnlyByCommandOrReset : Prop :=
  ∀ (s t : State) (a : HostAction) (rest : List HostAction), s.script = a :: rest → step s = .next t →
    a ≠ .reset → a.isIssue = false → t.status = s.status

/-- R60 (its first sentence): a read changes nothing of the block. -/
def Obligations.ReadsHaveNoSideEffect : Prop :=
  ∀ (s : State) (a : HostAction) (rest : List HostAction), s.script = a :: rest → a.isRead = true →
    ∃ t v, step s = .next t ∧ t.reads = v :: s.reads ∧
      t = { s with script := rest, pos := s.pos + 1, reads := t.reads, draw := t.draw } ∧
      (s.fatal = false → t.draw = s.draw)

/-- R60: a write to a register other than `CMD`, or to a buffer cell, is idempotent. -/
def Obligations.DataWritesAreIdempotent : Prop :=
  ∀ (s t : State) (a : HostAction), a.isRead = false → a.isIssue = false → a ≠ .reset →
    perform a s = .next t → perform a t = .next t

/-- R52, R30, R31, R32: reads and writes of the register space while `FATAL` = 0. -/
def Obligations.RegisterSpaceReadsAndWrites : Prop :=
  ∀ (s s' : State) (n : BitVec 16) (rest : List HostAction), s.fatal = false →
    s' = { s with script := rest, pos := s.pos + 1 } →
    (s.script = .readReg n :: rest → ∃ v, step s = .next { s' with reads := .reg v :: s.reads } ∧
      (n = 0x0000#16 → v = 0#64) ∧ (n = 0x0001#16 → v = s.status) ∧ (n = 0x0002#16 → v = s.opa) ∧
      (n = 0x0003#16 → v = s.opb) ∧ (n = 0x0004#16 → v = s.opc) ∧ (n = 0x0005#16 → v = s.r0) ∧
      (n = 0x0006#16 → v = s.r1) ∧ (n = 0x0007#16 → v = s.len) ∧ (n = 0x0008#16 → v = s.blen) ∧
      (n = 0x0009#16 → v = s.dlen) ∧ (n = 0x000A#16 → v = s.zcnt) ∧ (n = 0x000B#16 → v = s.ocap) ∧
      (n = 0x000C#16 → v = BitVec.ofNat 64 s.params.nlimb) ∧ (n = 0x000D#16 → v = BitVec.ofNat 64 s.params.bcap) ∧
      (n = 0x000E#16 → v = BitVec.ofNat 64 s.params.dcap) ∧
      (∀ i, i < s.params.nlimb → n.toNat = 0x0100 + i → v = s.limb i) ∧
      (0x000F ≤ n.toNat ∧ n.toNat ≤ 0x00FF ∨ 0x0100 + s.params.nlimb ≤ n.toNat → v = 0#64)) ∧
    (∀ v : Word, s.script = .writeReg n v :: rest →
      (n = 0x0000#16 → step s = issue v s') ∧
      (n = 0x0002#16 → step s = .next { s' with opa := v }) ∧ (n = 0x0003#16 → step s = .next { s' with opb := v }) ∧
      (n = 0x0004#16 → step s = .next { s' with opc := v }) ∧ (n = 0x0007#16 → step s = .next { s' with len := v }) ∧
      (n = 0x0008#16 → step s = .next { s' with blen := v }) ∧ (n = 0x0009#16 → step s = .next { s' with dlen := v }) ∧
      (n = 0x000A#16 → step s = .next { s' with zcnt := v }) ∧ (n = 0x000B#16 → step s = .next { s' with ocap := v }) ∧
      (∀ i, i < s.params.nlimb → n.toNat = 0x0100 + i → step s = .next { s' with w := s.w.set i v }) ∧
      (n ∈ [0x0001#16, 0x0005#16, 0x0006#16, 0x000C#16, 0x000D#16, 0x000E#16] ∨
        0x000F ≤ n.toNat ∧ n.toNat ≤ 0x00FF ∨ 0x0100 + s.params.nlimb ≤ n.toNat → step s = .next s'))

/-- R53: reads and writes of the buffer spaces while `FATAL` = 0, whatever `OCAP`, `BLEN` and `DLEN` hold. -/
def Obligations.BufferSpacesReadAndWrite : Prop :=
  ∀ (s s' : State) (i : BitVec 32) (rest : List HostAction), s.fatal = false →
    s' = { s with script := rest, pos := s.pos + 1 } →
    (s.script = .readBuf i :: rest → step s =
      .next { s' with reads := .cell (if i.toNat < s.params.bcap then s.cell .buf i.toNat else 0#8) :: s.reads }) ∧
    (s.script = .readDig i :: rest → step s =
      .next { s' with reads := .cell (if i.toNat < s.params.dcap then s.cell .dig i.toNat else 0#8) :: s.reads }) ∧
    (∀ v : Byte, s.script = .writeBuf i v :: rest → ∃ t, step s = .next t ∧ t = { s' with buf := t.buf } ∧
      (i.toNat < s.params.bcap → t.cell .buf i.toNat = v ∧ ∀ j, j ≠ i.toNat → t.cell .buf j = s.cell .buf j) ∧
      (s.params.bcap ≤ i.toNat → t = s')) ∧
    (∀ v : Byte, s.script = .writeDig i v :: rest → ∃ t, step s = .next t ∧ t = { s' with dig := t.dig } ∧
      (i.toNat < s.params.dcap → t.cell .dig i.toNat = v ∧ ∀ j, j ≠ i.toNat → t.cell .dig j = s.cell .dig j) ∧
      (s.params.dcap ≤ i.toNat → t = s'))
end

