-- ==== Sys2Proof/Laws/State.lean ====
section
/-! SUPPORT. The fields of the state after each named update: one lemma for each field and update, so that no later proof
unfolds a record update. -/

namespace Sys2Proof.Machine

/-! The ends of a command are settings of `ERR` -/

@[simp] theorem State.done_eq_setErr (s : State) : s.done = s.setErr .ok := rfl
@[simp] theorem State.fail_eq_setErr (s : State) (e : ErrCode) : s.fail e = s.setErr e := rfl

/-! `setErr` -/

@[simp] theorem State.setErr_params (s : State) (e : ErrCode) : (s.setErr e).params = s.params := rfl
@[simp] theorem State.setErr_w (s : State) (e : ErrCode) : (s.setErr e).w = s.w := rfl
@[simp] theorem State.setErr_len (s : State) (e : ErrCode) : (s.setErr e).len = s.len := rfl
@[simp] theorem State.setErr_opa (s : State) (e : ErrCode) : (s.setErr e).opa = s.opa := rfl
@[simp] theorem State.setErr_opb (s : State) (e : ErrCode) : (s.setErr e).opb = s.opb := rfl
@[simp] theorem State.setErr_opc (s : State) (e : ErrCode) : (s.setErr e).opc = s.opc := rfl
@[simp] theorem State.setErr_r0 (s : State) (e : ErrCode) : (s.setErr e).r0 = s.r0 := rfl
@[simp] theorem State.setErr_r1 (s : State) (e : ErrCode) : (s.setErr e).r1 = s.r1 := rfl
@[simp] theorem State.setErr_blen (s : State) (e : ErrCode) : (s.setErr e).blen = s.blen := rfl
@[simp] theorem State.setErr_dlen (s : State) (e : ErrCode) : (s.setErr e).dlen = s.dlen := rfl
@[simp] theorem State.setErr_zcnt (s : State) (e : ErrCode) : (s.setErr e).zcnt = s.zcnt := rfl
@[simp] theorem State.setErr_ocap (s : State) (e : ErrCode) : (s.setErr e).ocap = s.ocap := rfl
@[simp] theorem State.setErr_buf (s : State) (e : ErrCode) : (s.setErr e).buf = s.buf := rfl
@[simp] theorem State.setErr_dig (s : State) (e : ErrCode) : (s.setErr e).dig = s.dig := rfl
@[simp] theorem State.setErr_draw (s : State) (e : ErrCode) : (s.setErr e).draw = s.draw := rfl
@[simp] theorem State.setErr_epoch (s : State) (e : ErrCode) : (s.setErr e).epoch = s.epoch := rfl
@[simp] theorem State.setErr_script (s : State) (e : ErrCode) : (s.setErr e).script = s.script := rfl
@[simp] theorem State.setErr_pos (s : State) (e : ErrCode) : (s.setErr e).pos = s.pos := rfl
@[simp] theorem State.setErr_reads (s : State) (e : ErrCode) : (s.setErr e).reads = s.reads := rfl

/-! `setResults` -/

@[simp] theorem State.setResults_params (s : State) (p : Word × Word) : (s.setResults p).params = s.params := rfl
@[simp] theorem State.setResults_w (s : State) (p : Word × Word) : (s.setResults p).w = s.w := rfl
@[simp] theorem State.setResults_len (s : State) (p : Word × Word) : (s.setResults p).len = s.len := rfl
@[simp] theorem State.setResults_opa (s : State) (p : Word × Word) : (s.setResults p).opa = s.opa := rfl
@[simp] theorem State.setResults_opb (s : State) (p : Word × Word) : (s.setResults p).opb = s.opb := rfl
@[simp] theorem State.setResults_opc (s : State) (p : Word × Word) : (s.setResults p).opc = s.opc := rfl
@[simp] theorem State.setResults_r0 (s : State) (p : Word × Word) : (s.setResults p).r0 = p.1 := rfl
@[simp] theorem State.setResults_r1 (s : State) (p : Word × Word) : (s.setResults p).r1 = p.2 := rfl
@[simp] theorem State.setResults_blen (s : State) (p : Word × Word) : (s.setResults p).blen = s.blen := rfl
@[simp] theorem State.setResults_dlen (s : State) (p : Word × Word) : (s.setResults p).dlen = s.dlen := rfl
@[simp] theorem State.setResults_zcnt (s : State) (p : Word × Word) : (s.setResults p).zcnt = s.zcnt := rfl
@[simp] theorem State.setResults_ocap (s : State) (p : Word × Word) : (s.setResults p).ocap = s.ocap := rfl
@[simp] theorem State.setResults_status (s : State) (p : Word × Word) : (s.setResults p).status = s.status := rfl
@[simp] theorem State.setResults_buf (s : State) (p : Word × Word) : (s.setResults p).buf = s.buf := rfl
@[simp] theorem State.setResults_dig (s : State) (p : Word × Word) : (s.setResults p).dig = s.dig := rfl
@[simp] theorem State.setResults_draw (s : State) (p : Word × Word) : (s.setResults p).draw = s.draw := rfl
@[simp] theorem State.setResults_epoch (s : State) (p : Word × Word) : (s.setResults p).epoch = s.epoch := rfl
@[simp] theorem State.setResults_script (s : State) (p : Word × Word) : (s.setResults p).script = s.script := rfl
@[simp] theorem State.setResults_pos (s : State) (p : Word × Word) : (s.setResults p).pos = s.pos := rfl
@[simp] theorem State.setResults_reads (s : State) (p : Word × Word) : (s.setResults p).reads = s.reads := rfl

/-! `setNumber` -/

@[simp] theorem State.setNumber_params (s : State) (k : Nat) (w : List Word) : (s.setNumber k w).params = s.params := rfl
@[simp] theorem State.setNumber_w (s : State) (k : Nat) (w : List Word) : (s.setNumber k w).w = w := rfl
@[simp] theorem State.setNumber_len (s : State) (k : Nat) (w : List Word) : (s.setNumber k w).len = BitVec.ofNat 64 s.params.nlimb := rfl
@[simp] theorem State.setNumber_opa (s : State) (k : Nat) (w : List Word) : (s.setNumber k w).opa = s.opa := rfl
@[simp] theorem State.setNumber_opb (s : State) (k : Nat) (w : List Word) : (s.setNumber k w).opb = s.opb := rfl
@[simp] theorem State.setNumber_opc (s : State) (k : Nat) (w : List Word) : (s.setNumber k w).opc = s.opc := rfl
@[simp] theorem State.setNumber_r0 (s : State) (k : Nat) (w : List Word) : (s.setNumber k w).r0 = s.r0 := rfl
@[simp] theorem State.setNumber_r1 (s : State) (k : Nat) (w : List Word) : (s.setNumber k w).r1 = s.r1 := rfl
@[simp] theorem State.setNumber_blen (s : State) (k : Nat) (w : List Word) : (s.setNumber k w).blen = s.blen := rfl
@[simp] theorem State.setNumber_dlen (s : State) (k : Nat) (w : List Word) : (s.setNumber k w).dlen = s.dlen := rfl
@[simp] theorem State.setNumber_zcnt (s : State) (k : Nat) (w : List Word) : (s.setNumber k w).zcnt = BitVec.ofNat 64 k := rfl
@[simp] theorem State.setNumber_ocap (s : State) (k : Nat) (w : List Word) : (s.setNumber k w).ocap = s.ocap := rfl
@[simp] theorem State.setNumber_status (s : State) (k : Nat) (w : List Word) : (s.setNumber k w).status = s.status := rfl
@[simp] theorem State.setNumber_buf (s : State) (k : Nat) (w : List Word) : (s.setNumber k w).buf = s.buf := rfl
@[simp] theorem State.setNumber_dig (s : State) (k : Nat) (w : List Word) : (s.setNumber k w).dig = s.dig := rfl
@[simp] theorem State.setNumber_draw (s : State) (k : Nat) (w : List Word) : (s.setNumber k w).draw = s.draw := rfl
@[simp] theorem State.setNumber_epoch (s : State) (k : Nat) (w : List Word) : (s.setNumber k w).epoch = s.epoch := rfl
@[simp] theorem State.setNumber_script (s : State) (k : Nat) (w : List Word) : (s.setNumber k w).script = s.script := rfl
@[simp] theorem State.setNumber_pos (s : State) (k : Nat) (w : List Word) : (s.setNumber k w).pos = s.pos := rfl
@[simp] theorem State.setNumber_reads (s : State) (k : Nat) (w : List Word) : (s.setNumber k w).reads = s.reads := rfl

/-! `setMem` -/

@[simp] theorem State.setMem_params (s : State) (b : Buffer) (m : Memory) : (s.setMem b m).params = s.params := by cases b <;> rfl
@[simp] theorem State.setMem_w (s : State) (b : Buffer) (m : Memory) : (s.setMem b m).w = s.w := by cases b <;> rfl
@[simp] theorem State.setMem_len (s : State) (b : Buffer) (m : Memory) : (s.setMem b m).len = s.len := by cases b <;> rfl
@[simp] theorem State.setMem_opa (s : State) (b : Buffer) (m : Memory) : (s.setMem b m).opa = s.opa := by cases b <;> rfl
@[simp] theorem State.setMem_opb (s : State) (b : Buffer) (m : Memory) : (s.setMem b m).opb = s.opb := by cases b <;> rfl
@[simp] theorem State.setMem_opc (s : State) (b : Buffer) (m : Memory) : (s.setMem b m).opc = s.opc := by cases b <;> rfl
@[simp] theorem State.setMem_r0 (s : State) (b : Buffer) (m : Memory) : (s.setMem b m).r0 = s.r0 := by cases b <;> rfl
@[simp] theorem State.setMem_r1 (s : State) (b : Buffer) (m : Memory) : (s.setMem b m).r1 = s.r1 := by cases b <;> rfl
@[simp] theorem State.setMem_blen (s : State) (b : Buffer) (m : Memory) : (s.setMem b m).blen = s.blen := by cases b <;> rfl
@[simp] theorem State.setMem_dlen (s : State) (b : Buffer) (m : Memory) : (s.setMem b m).dlen = s.dlen := by cases b <;> rfl
@[simp] theorem State.setMem_zcnt (s : State) (b : Buffer) (m : Memory) : (s.setMem b m).zcnt = s.zcnt := by cases b <;> rfl
@[simp] theorem State.setMem_ocap (s : State) (b : Buffer) (m : Memory) : (s.setMem b m).ocap = s.ocap := by cases b <;> rfl
@[simp] theorem State.setMem_status (s : State) (b : Buffer) (m : Memory) : (s.setMem b m).status = s.status := by cases b <;> rfl
@[simp] theorem State.setMem_draw (s : State) (b : Buffer) (m : Memory) : (s.setMem b m).draw = s.draw := by cases b <;> rfl
@[simp] theorem State.setMem_epoch (s : State) (b : Buffer) (m : Memory) : (s.setMem b m).epoch = s.epoch := by cases b <;> rfl
@[simp] theorem State.setMem_script (s : State) (b : Buffer) (m : Memory) : (s.setMem b m).script = s.script := by cases b <;> rfl
@[simp] theorem State.setMem_pos (s : State) (b : Buffer) (m : Memory) : (s.setMem b m).pos = s.pos := by cases b <;> rfl
@[simp] theorem State.setMem_reads (s : State) (b : Buffer) (m : Memory) : (s.setMem b m).reads = s.reads := by cases b <;> rfl

/-! `setLength` -/

@[simp] theorem State.setLength_params (s : State) (b : Buffer) (n : Nat) : (s.setLength b n).params = s.params := by cases b <;> rfl
@[simp] theorem State.setLength_w (s : State) (b : Buffer) (n : Nat) : (s.setLength b n).w = s.w := by cases b <;> rfl
@[simp] theorem State.setLength_len (s : State) (b : Buffer) (n : Nat) : (s.setLength b n).len = s.len := by cases b <;> rfl
@[simp] theorem State.setLength_opa (s : State) (b : Buffer) (n : Nat) : (s.setLength b n).opa = s.opa := by cases b <;> rfl
@[simp] theorem State.setLength_opb (s : State) (b : Buffer) (n : Nat) : (s.setLength b n).opb = s.opb := by cases b <;> rfl
@[simp] theorem State.setLength_opc (s : State) (b : Buffer) (n : Nat) : (s.setLength b n).opc = s.opc := by cases b <;> rfl
@[simp] theorem State.setLength_r0 (s : State) (b : Buffer) (n : Nat) : (s.setLength b n).r0 = s.r0 := by cases b <;> rfl
@[simp] theorem State.setLength_r1 (s : State) (b : Buffer) (n : Nat) : (s.setLength b n).r1 = s.r1 := by cases b <;> rfl
@[simp] theorem State.setLength_zcnt (s : State) (b : Buffer) (n : Nat) : (s.setLength b n).zcnt = s.zcnt := by cases b <;> rfl
@[simp] theorem State.setLength_ocap (s : State) (b : Buffer) (n : Nat) : (s.setLength b n).ocap = s.ocap := by cases b <;> rfl
@[simp] theorem State.setLength_status (s : State) (b : Buffer) (n : Nat) : (s.setLength b n).status = s.status := by cases b <;> rfl
@[simp] theorem State.setLength_buf (s : State) (b : Buffer) (n : Nat) : (s.setLength b n).buf = s.buf := by cases b <;> rfl
@[simp] theorem State.setLength_dig (s : State) (b : Buffer) (n : Nat) : (s.setLength b n).dig = s.dig := by cases b <;> rfl
@[simp] theorem State.setLength_draw (s : State) (b : Buffer) (n : Nat) : (s.setLength b n).draw = s.draw := by cases b <;> rfl
@[simp] theorem State.setLength_epoch (s : State) (b : Buffer) (n : Nat) : (s.setLength b n).epoch = s.epoch := by cases b <;> rfl
@[simp] theorem State.setLength_script (s : State) (b : Buffer) (n : Nat) : (s.setLength b n).script = s.script := by cases b <;> rfl
@[simp] theorem State.setLength_pos (s : State) (b : Buffer) (n : Nat) : (s.setLength b n).pos = s.pos := by cases b <;> rfl
@[simp] theorem State.setLength_reads (s : State) (b : Buffer) (n : Nat) : (s.setLength b n).reads = s.reads := by cases b <;> rfl

/-! `answer` -/

@[simp] theorem State.answer_params (s : State) (v : ReadValue) : (s.answer v).params = s.params := rfl
@[simp] theorem State.answer_w (s : State) (v : ReadValue) : (s.answer v).w = s.w := rfl
@[simp] theorem State.answer_len (s : State) (v : ReadValue) : (s.answer v).len = s.len := rfl
@[simp] theorem State.answer_opa (s : State) (v : ReadValue) : (s.answer v).opa = s.opa := rfl
@[simp] theorem State.answer_opb (s : State) (v : ReadValue) : (s.answer v).opb = s.opb := rfl
@[simp] theorem State.answer_opc (s : State) (v : ReadValue) : (s.answer v).opc = s.opc := rfl
@[simp] theorem State.answer_r0 (s : State) (v : ReadValue) : (s.answer v).r0 = s.r0 := rfl
@[simp] theorem State.answer_r1 (s : State) (v : ReadValue) : (s.answer v).r1 = s.r1 := rfl
@[simp] theorem State.answer_blen (s : State) (v : ReadValue) : (s.answer v).blen = s.blen := rfl
@[simp] theorem State.answer_dlen (s : State) (v : ReadValue) : (s.answer v).dlen = s.dlen := rfl
@[simp] theorem State.answer_zcnt (s : State) (v : ReadValue) : (s.answer v).zcnt = s.zcnt := rfl
@[simp] theorem State.answer_ocap (s : State) (v : ReadValue) : (s.answer v).ocap = s.ocap := rfl
@[simp] theorem State.answer_status (s : State) (v : ReadValue) : (s.answer v).status = s.status := rfl
@[simp] theorem State.answer_buf (s : State) (v : ReadValue) : (s.answer v).buf = s.buf := rfl
@[simp] theorem State.answer_dig (s : State) (v : ReadValue) : (s.answer v).dig = s.dig := rfl
@[simp] theorem State.answer_draw (s : State) (v : ReadValue) : (s.answer v).draw = s.draw := rfl
@[simp] theorem State.answer_epoch (s : State) (v : ReadValue) : (s.answer v).epoch = s.epoch := rfl
@[simp] theorem State.answer_script (s : State) (v : ReadValue) : (s.answer v).script = s.script := rfl
@[simp] theorem State.answer_pos (s : State) (v : ReadValue) : (s.answer v).pos = s.pos := rfl
@[simp] theorem State.answer_reads (s : State) (v : ReadValue) : (s.answer v).reads = v :: s.reads := rfl

/-! `drawn` -/

@[simp] theorem State.drawn_params (s : State) : (s.drawn).params = s.params := rfl
@[simp] theorem State.drawn_w (s : State) : (s.drawn).w = s.w := rfl
@[simp] theorem State.drawn_len (s : State) : (s.drawn).len = s.len := rfl
@[simp] theorem State.drawn_opa (s : State) : (s.drawn).opa = s.opa := rfl
@[simp] theorem State.drawn_opb (s : State) : (s.drawn).opb = s.opb := rfl
@[simp] theorem State.drawn_opc (s : State) : (s.drawn).opc = s.opc := rfl
@[simp] theorem State.drawn_r0 (s : State) : (s.drawn).r0 = s.r0 := rfl
@[simp] theorem State.drawn_r1 (s : State) : (s.drawn).r1 = s.r1 := rfl
@[simp] theorem State.drawn_blen (s : State) : (s.drawn).blen = s.blen := rfl
@[simp] theorem State.drawn_dlen (s : State) : (s.drawn).dlen = s.dlen := rfl
@[simp] theorem State.drawn_zcnt (s : State) : (s.drawn).zcnt = s.zcnt := rfl
@[simp] theorem State.drawn_ocap (s : State) : (s.drawn).ocap = s.ocap := rfl
@[simp] theorem State.drawn_status (s : State) : (s.drawn).status = s.status := rfl
@[simp] theorem State.drawn_buf (s : State) : (s.drawn).buf = s.buf := rfl
@[simp] theorem State.drawn_dig (s : State) : (s.drawn).dig = s.dig := rfl
@[simp] theorem State.drawn_draw (s : State) : (s.drawn).draw = s.draw + 1 := rfl
@[simp] theorem State.drawn_epoch (s : State) : (s.drawn).epoch = s.epoch := rfl
@[simp] theorem State.drawn_script (s : State) : (s.drawn).script = s.script := rfl
@[simp] theorem State.drawn_pos (s : State) : (s.drawn).pos = s.pos := rfl
@[simp] theorem State.drawn_reads (s : State) : (s.drawn).reads = s.reads := rfl

/-! `advance` -/

@[simp] theorem State.advance_params (s : State) : (s.advance).params = s.params := rfl
@[simp] theorem State.advance_w (s : State) : (s.advance).w = s.w := rfl
@[simp] theorem State.advance_len (s : State) : (s.advance).len = s.len := rfl
@[simp] theorem State.advance_opa (s : State) : (s.advance).opa = s.opa := rfl
@[simp] theorem State.advance_opb (s : State) : (s.advance).opb = s.opb := rfl
@[simp] theorem State.advance_opc (s : State) : (s.advance).opc = s.opc := rfl
@[simp] theorem State.advance_r0 (s : State) : (s.advance).r0 = s.r0 := rfl
@[simp] theorem State.advance_r1 (s : State) : (s.advance).r1 = s.r1 := rfl
@[simp] theorem State.advance_blen (s : State) : (s.advance).blen = s.blen := rfl
@[simp] theorem State.advance_dlen (s : State) : (s.advance).dlen = s.dlen := rfl
@[simp] theorem State.advance_zcnt (s : State) : (s.advance).zcnt = s.zcnt := rfl
@[simp] theorem State.advance_ocap (s : State) : (s.advance).ocap = s.ocap := rfl
@[simp] theorem State.advance_status (s : State) : (s.advance).status = s.status := rfl
@[simp] theorem State.advance_buf (s : State) : (s.advance).buf = s.buf := rfl
@[simp] theorem State.advance_dig (s : State) : (s.advance).dig = s.dig := rfl
@[simp] theorem State.advance_draw (s : State) : (s.advance).draw = s.draw := rfl
@[simp] theorem State.advance_epoch (s : State) : (s.advance).epoch = s.epoch := rfl
@[simp] theorem State.advance_script (s : State) : (s.advance).script = s.script.tail := rfl
@[simp] theorem State.advance_pos (s : State) : (s.advance).pos = s.pos + 1 := rfl
@[simp] theorem State.advance_reads (s : State) : (s.advance).reads = s.reads := rfl

/-! `raiseFatal` -/

@[simp] theorem State.raiseFatal_params (s : State) (c : FatalCause) : (s.raiseFatal c).params = s.params := rfl
@[simp] theorem State.raiseFatal_w (s : State) (c : FatalCause) : (s.raiseFatal c).w = freeLimbs s.draw s.params.nlimb := rfl
@[simp] theorem State.raiseFatal_len (s : State) (c : FatalCause) : (s.raiseFatal c).len = Config.freeWord s.draw 0x07 := rfl
@[simp] theorem State.raiseFatal_opa (s : State) (c : FatalCause) : (s.raiseFatal c).opa = Config.freeWord s.draw 0x02 := rfl
@[simp] theorem State.raiseFatal_opb (s : State) (c : FatalCause) : (s.raiseFatal c).opb = Config.freeWord s.draw 0x03 := rfl
@[simp] theorem State.raiseFatal_opc (s : State) (c : FatalCause) : (s.raiseFatal c).opc = Config.freeWord s.draw 0x04 := rfl
@[simp] theorem State.raiseFatal_r0 (s : State) (c : FatalCause) : (s.raiseFatal c).r0 = Config.freeWord s.draw 0x05 := rfl
@[simp] theorem State.raiseFatal_r1 (s : State) (c : FatalCause) : (s.raiseFatal c).r1 = Config.freeWord s.draw 0x06 := rfl
@[simp] theorem State.raiseFatal_blen (s : State) (c : FatalCause) : (s.raiseFatal c).blen = Config.freeWord s.draw 0x08 := rfl
@[simp] theorem State.raiseFatal_dlen (s : State) (c : FatalCause) : (s.raiseFatal c).dlen = Config.freeWord s.draw 0x09 := rfl
@[simp] theorem State.raiseFatal_zcnt (s : State) (c : FatalCause) : (s.raiseFatal c).zcnt = Config.freeWord s.draw 0x0A := rfl
@[simp] theorem State.raiseFatal_ocap (s : State) (c : FatalCause) : (s.raiseFatal c).ocap = Config.freeWord s.draw 0x0B := rfl
@[simp] theorem State.raiseFatal_status (s : State) (c : FatalCause) : (s.raiseFatal c).status = packStatus ErrCode.ok.code c.code true := rfl
@[simp] theorem State.raiseFatal_buf (s : State) (c : FatalCause) : (s.raiseFatal c).buf = [] := rfl
@[simp] theorem State.raiseFatal_dig (s : State) (c : FatalCause) : (s.raiseFatal c).dig = [] := rfl
@[simp] theorem State.raiseFatal_draw (s : State) (c : FatalCause) : (s.raiseFatal c).draw = s.draw + 1 := rfl
@[simp] theorem State.raiseFatal_epoch (s : State) (c : FatalCause) : (s.raiseFatal c).epoch = s.draw := rfl
@[simp] theorem State.raiseFatal_script (s : State) (c : FatalCause) : (s.raiseFatal c).script = s.script := rfl
@[simp] theorem State.raiseFatal_pos (s : State) (c : FatalCause) : (s.raiseFatal c).pos = s.pos := rfl
@[simp] theorem State.raiseFatal_reads (s : State) (c : FatalCause) : (s.raiseFatal c).reads = s.reads := rfl

/-! `resetBlock` -/

@[simp] theorem State.resetBlock_params (s : State) : (s.resetBlock).params = s.params := rfl
@[simp] theorem State.resetBlock_w (s : State) : (s.resetBlock).w = freeLimbs s.draw s.params.nlimb := rfl
@[simp] theorem State.resetBlock_len (s : State) : (s.resetBlock).len = 0#64 := rfl
@[simp] theorem State.resetBlock_opa (s : State) : (s.resetBlock).opa = 0#64 := rfl
@[simp] theorem State.resetBlock_opb (s : State) : (s.resetBlock).opb = 0#64 := rfl
@[simp] theorem State.resetBlock_opc (s : State) : (s.resetBlock).opc = 0#64 := rfl
@[simp] theorem State.resetBlock_r0 (s : State) : (s.resetBlock).r0 = 0#64 := rfl
@[simp] theorem State.resetBlock_r1 (s : State) : (s.resetBlock).r1 = 0#64 := rfl
@[simp] theorem State.resetBlock_blen (s : State) : (s.resetBlock).blen = 0#64 := rfl
@[simp] theorem State.resetBlock_dlen (s : State) : (s.resetBlock).dlen = 0#64 := rfl
@[simp] theorem State.resetBlock_zcnt (s : State) : (s.resetBlock).zcnt = 0#64 := rfl
@[simp] theorem State.resetBlock_ocap (s : State) : (s.resetBlock).ocap = 0xFFFFFFFFFFFFFFFF#64 := rfl
@[simp] theorem State.resetBlock_status (s : State) : (s.resetBlock).status = 0#64 := rfl
@[simp] theorem State.resetBlock_buf (s : State) : (s.resetBlock).buf = [] := rfl
@[simp] theorem State.resetBlock_dig (s : State) : (s.resetBlock).dig = [] := rfl
@[simp] theorem State.resetBlock_draw (s : State) : (s.resetBlock).draw = s.draw + 1 := rfl
@[simp] theorem State.resetBlock_epoch (s : State) : (s.resetBlock).epoch = s.draw := rfl
@[simp] theorem State.resetBlock_script (s : State) : (s.resetBlock).script = s.script := rfl
@[simp] theorem State.resetBlock_pos (s : State) : (s.resetBlock).pos = s.pos := rfl
@[simp] theorem State.resetBlock_reads (s : State) : (s.resetBlock).reads = s.reads := rfl

/-! The buffers by name -/

@[simp] theorem State.mem_buf (s : State) : s.mem .buf = s.buf := rfl
@[simp] theorem State.mem_dig (s : State) : s.mem .dig = s.dig := rfl
@[simp] theorem State.capacity_buf (s : State) : s.capacity .buf = s.params.bcap := rfl
@[simp] theorem State.capacity_dig (s : State) : s.capacity .dig = s.params.dcap := rfl
@[simp] theorem State.length_buf (s : State) : s.length .buf = s.blen := rfl
@[simp] theorem State.length_dig (s : State) : s.length .dig = s.dlen := rfl

theorem State.setMem_mem (s : State) (b b' : Buffer) (m : Memory) :
    (s.setMem b m).mem b' = if b' = b then m else s.mem b' := by
  cases b <;> cases b' <;> rfl

@[simp] theorem State.setLength_mem (s : State) (b b' : Buffer) (n : Nat) : (s.setLength b n).mem b' = s.mem b' := by
  cases b <;> cases b' <;> rfl

@[simp] theorem State.setErr_mem (s : State) (b : Buffer) (e : ErrCode) : (s.setErr e).mem b = s.mem b := by
  cases b <;> rfl

@[simp] theorem State.setMem_length (s : State) (b b' : Buffer) (m : Memory) : (s.setMem b m).length b' = s.length b' := by
  cases b <;> cases b' <;> rfl

theorem State.setLength_length (s : State) (b b' : Buffer) (n : Nat) :
    (s.setLength b n).length b' = if b' = b then BitVec.ofNat 64 n else s.length b' := by
  cases b <;> cases b' <;> rfl

end Sys2Proof.Machine
end

