-- ==== Sys2Proof/Laws/Status.lean ====
section
/-! SUPPORT. `STATUS`: what setting `ERR` and fatal entry leave in its fields (10_state.md R29, 60_exceptions.md R203). -/

namespace Sys2Proof.Machine

theorem State.setErr_bit_low (s : State) (e : ErrCode) (j : Nat) (h : j < 8) :
    (s.setErr e).status.getLsbD j = e.code.getLsbD j := by
  simp only [State.setErr]
  rw [BitVec.getLsbD_append]
  simp [h]

theorem State.setErr_bit_high (s : State) (e : ErrCode) (j : Nat) (h : 8 ≤ j) :
    (s.setErr e).status.getLsbD j = s.status.getLsbD j := by
  simp only [State.setErr]
  rw [BitVec.getLsbD_append]
  simp only [show ¬ j < 8 by omega, BitVec.getLsbD_extractLsb', if_false]
  by_cases hj : j < 64
  · simp [show j - 8 < 56 by omega, show 8 + (j - 8) = j by omega]
  · simp [show ¬ j - 8 < 56 by omega, BitVec.getLsbD_of_ge s.status j (by omega)]

@[simp] theorem State.setErr_err (s : State) (e : ErrCode) : (s.setErr e).err = e.code := by
  apply BitVec.eq_of_getLsbD_eq
  intro i hi
  simp only [State.err, BitVec.getLsbD_extractLsb', hi, decide_true, Bool.true_and, Nat.zero_add]
  exact s.setErr_bit_low e i hi

@[simp] theorem State.setErr_fcause (s : State) (e : ErrCode) : (s.setErr e).fcause = s.fcause := by
  apply BitVec.eq_of_getLsbD_eq
  intro i hi
  simp only [State.fcause, BitVec.getLsbD_extractLsb', hi, decide_true, Bool.true_and]
  exact s.setErr_bit_high e _ (by omega)

@[simp] theorem State.setErr_fatal (s : State) (e : ErrCode) : (s.setErr e).fatal = s.fatal :=
  s.setErr_bit_high e 16 (by omega)

theorem packStatus_toNat (e f : Byte) (h : Bool) :
    (packStatus e f h).toNat = e.toNat + 256 * f.toNat + 65536 * h.toNat := by
  have he := e.isLt
  have hf := f.isLt
  simp only [packStatus, BitVec.toNat_append, BitVec.toNat_ofBool]
  simp only [← Nat.shiftLeft_add_eq_or_of_lt he, ← Nat.shiftLeft_add_eq_or_of_lt hf]
  rw [← Nat.shiftLeft_add_eq_or_of_lt (by cases h <;> decide)]
  simp [Nat.shiftLeft_eq]
  omega

@[simp] theorem State.raiseFatal_err (s : State) (c : FatalCause) : (s.raiseFatal c).err = 0#8 := by
  change (packStatus ErrCode.ok.code c.code true).extractLsb' 0 8 = 0#8
  cases c <;> decide

@[simp] theorem State.raiseFatal_fcause (s : State) (c : FatalCause) : (s.raiseFatal c).fcause = c.code := by
  change (packStatus ErrCode.ok.code c.code true).extractLsb' 8 8 = c.code
  cases c <;> decide

@[simp] theorem State.raiseFatal_fatal (s : State) (c : FatalCause) : (s.raiseFatal c).fatal = true := by
  change (packStatus ErrCode.ok.code c.code true).getLsbD 16 = true
  cases c <;> decide

@[simp] theorem State.resetBlock_fatal (s : State) : s.resetBlock.fatal = false := by simp [State.fatal]

/-- Two states with one `STATUS` agree on its fields. -/
theorem State.fatal_of_status {s t : State} (h : t.status = s.status) : t.fatal = s.fatal := by
  simp [State.fatal, h]

theorem State.err_of_status {s t : State} (h : t.status = s.status) : t.err = s.err := by
  simp [State.err, h]

theorem State.fcause_of_status {s t : State} (h : t.status = s.status) : t.fcause = s.fcause := by
  simp [State.fcause, h]

/-- Setting `ERR` is what `ErrBecomes` says, for any state that has the resulting `STATUS`. -/
theorem errBecomes_of_status {s t u : State} {e : ErrCode} (ht : t.status = (u.setErr e).status)
    (hu : u.status = s.status) : ErrBecomes s t e := by
  refine ⟨?_, fun j hj => ?_⟩
  · rw [State.err_of_status ht, State.setErr_err]
  · rw [ht, State.setErr_bit_high _ _ _ hj, hu]

theorem errBecomes_setErr (s : State) (e : ErrCode) : ErrBecomes s (s.setErr e) e :=
  errBecomes_of_status rfl rfl

theorem ErrBecomes.fatal {s t : State} {e : ErrCode} (h : ErrBecomes s t e) : t.fatal = s.fatal :=
  h.2 16 (by omega)

theorem ErrBecomes.fcause {s t : State} {e : ErrCode} (h : ErrBecomes s t e) : t.fcause = s.fcause := by
  apply BitVec.eq_of_getLsbD_eq
  intro i hi
  simp only [State.fcause, BitVec.getLsbD_extractLsb', hi, decide_true, Bool.true_and]
  exact h.2 _ (by omega)

theorem failsOnly_setErr (s : State) (e : ErrCode) : FailsOnly s (s.setErr e) e :=
  ⟨errBecomes_setErr s e, rfl⟩

theorem packStatus_bit (e f : Byte) (h : Bool) {j : Nat} (hj : 17 ≤ j) : (packStatus e f h).getLsbD j = false := by
  rw [← BitVec.testBit_toNat]
  apply Nat.testBit_lt_two_pow
  rw [packStatus_toNat]
  have he := e.isLt
  have hf := f.isLt
  have : 2 ^ 17 ≤ 2 ^ j := Nat.pow_le_pow_right (by omega) hj
  cases h <;> simp <;> omega

/-- A `STATUS` as fatal entry leaves it is legal. -/
theorem State.statusLegal_raiseFatal (s : State) (c : FatalCause) : (s.raiseFatal c).StatusLegal :=
  ⟨fun j hj => by rw [State.raiseFatal_status, packStatus_bit _ _ _ hj], .inr ⟨by simp, by simp, c, by simp⟩⟩

/-- While the block is not halted, a legal `STATUS` has cause 0. -/
theorem State.StatusLegal.fcause_eq {s : State} (hs : s.StatusLegal) (hf : s.fatal = false) : s.fcause = 0#8 := by
  rcases hs.2 with h | h
  · exact h.2.1
  · simp [hf] at h

/-- The end of a command that does not halt leaves a legal `STATUS`. -/
theorem State.StatusLegal.of_errBecomes {s t : State} {e : ErrCode} (hs : s.StatusLegal) (hf : s.fatal = false)
    (he : e ∈ raisedErrs) (ht : ErrBecomes s t e) : t.StatusLegal :=
  ⟨fun j hj => by rw [ht.2 j (by omega)]; exact hs.1 j hj,
    .inl ⟨by rw [ht.fatal, hf], by rw [ht.fcause, hs.fcause_eq hf], e, he, ht.1⟩⟩

theorem State.StatusLegal.of_eq {s t : State} (hs : s.StatusLegal) (ht : t.status = s.status) : t.StatusLegal := by
  simpa only [State.StatusLegal, State.fatal, State.fcause, State.err, ht] using hs

end Sys2Proof.Machine
end

