-- ==== Sys2Proof/Laws/Memory.lean ====
section
/-! SUPPORT. The cells of a buffer: what is read after a write, the canonical form, and everything the two ends of a
command that fills a buffer can do (43_chunked_converter.md R151). -/

namespace Sys2Proof.Machine

/-! ## Reading -/

@[simp] theorem Memory.get?_nil (i : Nat) : Memory.get? [] i = none := rfl

@[simp] theorem Memory.get?_cons (c : Host.Cell) (m : Memory) (i : Nat) :
    Memory.get? (c :: m) i = if c.1 = i then some c.2 else Memory.get? m i := rfl

theorem Memory.get?_append (m₁ m₂ : Memory) (i : Nat) :
    Memory.get? (m₁ ++ m₂) i = (Memory.get? m₁ i).or (Memory.get? m₂ i) := by
  induction m₁ with
  | nil => rfl
  | cons c m ih =>
    rw [List.cons_append, Memory.get?_cons, Memory.get?_cons, ih]
    split <;> rfl

theorem Memory.get?_filter (p : Nat → Bool) (m : Memory) (i : Nat) :
    Memory.get? (m.filter fun c => p c.1) i = if p i then Memory.get? m i else none := by
  induction m with
  | nil => simp
  | cons c m ih =>
    by_cases hc : p c.1
    · rw [List.filter_cons_of_pos (p := fun c : Host.Cell => p c.1) hc, Memory.get?_cons, Memory.get?_cons, ih]
      by_cases h : c.1 = i
      · subst h
        simp [hc]
      · simp [h]
    · rw [List.filter_cons_of_neg (p := fun c : Host.Cell => p c.1) hc, ih, Memory.get?_cons]
      by_cases h : c.1 = i
      · subst h
        simp [hc]
      · simp [h]

theorem Memory.get?_listed (start : Nat) (vs : List Byte) (i : Nat) :
    Memory.get? (Memory.listed start vs) i = if start ≤ i then vs[i - start]? else none := by
  induction vs generalizing start with
  | nil => simp [Memory.listed]
  | cons v vs ih =>
    rw [Memory.listed, Memory.get?_cons, ih]
    by_cases h : start = i
    · simp [h]
    · by_cases hlt : start ≤ i
      · simp [h, hlt, show start + 1 ≤ i by omega, show i - start = (i - (start + 1)) + 1 by omega]
      · simp [h, hlt, show ¬ start + 1 ≤ i by omega]

/-- Everything a write of cells does to reads. -/
theorem Memory.get?_splice (m : Memory) (start : Nat) (vs : List Byte) (i : Nat) :
    Memory.get? (Memory.splice m start vs) i =
      if start ≤ i ∧ i < start + vs.length then vs[i - start]? else Memory.get? m i := by
  rw [Memory.splice, Memory.get?_append, Memory.get?_append, Memory.get?_listed,
    Memory.get?_filter fun k => decide (k < start), Memory.get?_filter fun k => decide (start + vs.length ≤ k)]
  by_cases h1 : i < start
  · simp [h1, show ¬ start ≤ i by omega, show ¬ start + vs.length ≤ i by omega]
  · by_cases h2 : i < start + vs.length
    · have hs : i - start < vs.length := by omega
      simp [h1, h2, show start ≤ i by omega, List.getElem?_eq_getElem hs]
    · simp [h1, h2, show start ≤ i by omega, show start + vs.length ≤ i by omega,
        List.getElem?_eq_none (show vs.length ≤ i - start by omega)]

/-! ## The canonical form -/

theorem Memory.mem_listed {start : Nat} {vs : List Byte} {c : Host.Cell} (h : c ∈ Memory.listed start vs) :
    start ≤ c.1 ∧ c.1 < start + vs.length := by
  induction vs generalizing start with
  | nil => simp [Memory.listed] at h
  | cons v vs ih =>
    rw [Memory.listed, List.mem_cons] at h
    obtain rfl | h := h
    · simp
    · have := ih h
      simp only [List.length_cons]
      omega

theorem Memory.listed_rising (start : Nat) (vs : List Byte) :
    (Memory.listed start vs).Pairwise fun a b => a.1 < b.1 := by
  induction vs generalizing start with
  | nil => simp [Memory.listed]
  | cons v vs ih =>
    rw [Memory.listed, List.pairwise_cons]
    exact ⟨fun c hc => Nat.lt_of_succ_le (Memory.mem_listed hc).1, ih _⟩

/-- Every operation on the cells of a buffer is a splice, and a splice keeps the canonical form. -/
theorem Memory.wf_splice {m : Memory} (h : m.wf) (start : Nat) (vs : List Byte) : (Memory.splice m start vs).wf := by
  refine ⟨?_, fun c _ => by simp [Memory.unlisted]⟩
  rw [Memory.splice, List.pairwise_append, List.pairwise_append]
  refine ⟨⟨h.1.filter _, Memory.listed_rising _ _, fun a ha b hb => ?_⟩, h.1.filter _, fun a ha b hb => ?_⟩
  · have := (Memory.mem_listed hb).1
    simp only [List.mem_filter, decide_eq_true_eq] at ha
    omega
  · simp only [List.mem_filter, decide_eq_true_eq] at hb
    rw [List.mem_append] at ha
    obtain ha | ha := ha
    · simp only [List.mem_filter, decide_eq_true_eq] at ha
      omega
    · have := (Memory.mem_listed ha).2
      omega

theorem Memory.wf_nil : Memory.wf [] := by decide

/-- A splice lists only cells that were listed or are written. -/
theorem Memory.mem_splice {m : Memory} {start : Nat} {vs : List Byte} {c : Host.Cell} (h : c ∈ Memory.splice m start vs) :
    c ∈ m ∨ start ≤ c.1 ∧ c.1 < start + vs.length := by
  simp only [Memory.splice, List.mem_append, List.mem_filter] at h
  obtain (h | h) | h := h
  · exact .inl h.1
  · exact .inr (Memory.mem_listed h)
  · exact .inl h.1

/-- Writing the same cells again changes nothing. -/
theorem Memory.splice_splice (m : Memory) (start : Nat) (vs : List Byte) :
    Memory.splice (Memory.splice m start vs) start vs = Memory.splice m start vs := by
  have lt : ∀ l : Memory, (∀ c ∈ l, c.1 < start) →
      l.filter (fun c => decide (c.1 < start)) = l ∧ l.filter (fun c => decide (start + vs.length ≤ c.1)) = [] := by
    intro l hl
    refine ⟨List.filter_eq_self.2 fun c hc => by simpa using hl c hc, List.filter_eq_nil_iff.2 fun c hc => ?_⟩
    have := hl c hc
    simp only [decide_eq_true_eq]
    omega
  have mid : (Memory.listed start vs).filter (fun c => decide (c.1 < start)) = [] ∧
      (Memory.listed start vs).filter (fun c => decide (start + vs.length ≤ c.1)) = [] := by
    refine ⟨List.filter_eq_nil_iff.2 fun c hc => ?_, List.filter_eq_nil_iff.2 fun c hc => ?_⟩ <;>
    · have := Memory.mem_listed hc
      simp only [decide_eq_true_eq]
      omega
  have ge : ∀ l : Memory, (∀ c ∈ l, start + vs.length ≤ c.1) →
      l.filter (fun c => decide (c.1 < start)) = [] ∧ l.filter (fun c => decide (start + vs.length ≤ c.1)) = l := by
    intro l hl
    refine ⟨List.filter_eq_nil_iff.2 fun c hc => ?_, List.filter_eq_self.2 fun c hc => by simpa using hl c hc⟩
    have := hl c hc
    simp only [decide_eq_true_eq]
    omega
  have h1 := lt (m.filter fun c => decide (c.1 < start)) (by simp)
  have h2 := ge (m.filter fun c => decide (start + vs.length ≤ c.1)) (by simp)
  simp only [Memory.splice, List.filter_append, h1.1, h1.2, mid.1, mid.2, h2.1, h2.2, List.append_nil, List.nil_append]

/-! ## Cells of the state -/

/-- A cell's value depends only on the buffer's list and the event of the unlisted cells. -/
theorem State.cell_congr {s t : State} {b : Buffer} (hm : t.mem b = s.mem b) (he : t.epoch = s.epoch) (i : Nat) :
    t.cell b i = s.cell b i := by
  simp [State.cell, hm, he]

theorem State.cells_congr {s t : State} {b : Buffer} (h : ∀ i, t.cell b i = s.cell b i) (n : Nat) :
    t.cells b n = s.cells b n := by
  simp [State.cells, h]

@[simp] theorem State.cells_length (s : State) (b : Buffer) (n : Nat) : (s.cells b n).length = n := by
  simp [State.cells]

theorem State.cells_getElem? (s : State) (b : Buffer) (n i : Nat) (h : i < n) : (s.cells b n)[i]? = some (s.cell b i) := by
  simp [State.cells, h]

/-- A state whose buffer is spliced reads the written cells there, and the old cells elsewhere. -/
theorem State.cell_splice {s t : State} {b : Buffer} {start : Nat} {vs : List Byte}
    (hm : t.mem b = (s.mem b).splice start vs) (he : t.epoch = s.epoch) (i : Nat) :
    t.cell b i = if start ≤ i ∧ i < start + vs.length then vs.getD (i - start) 0#8 else s.cell b i := by
  rw [State.cell, hm, he, Memory.get?_splice]
  by_cases h : start ≤ i ∧ i < start + vs.length
  · have hs : i - start < vs.length := by omega
    simp [h, List.getElem?_eq_getElem hs]
  · simp [h, State.cell]

/-- Cells `0 .. n-1` are a list exactly when each cell is its element. -/
theorem State.cells_eq {s : State} {b : Buffer} {l : List Byte} (h : ∀ i, i < l.length → s.cell b i = l.getD i 0#8) :
    s.cells b l.length = l := by
  apply List.ext_getElem?
  intro i
  by_cases hi : i < l.length
  · rw [State.cells_getElem? _ _ _ _ hi, h i hi, List.getElem?_eq_getElem hi]
    simp [hi]
  · rw [List.getElem?_eq_none (by simpa using hi), List.getElem?_eq_none (by omega)]

/-! ## The two ends of a command that fills a buffer -/

theorem State.deliver_of_le {s : State} {b : Buffer} {zeros : Nat} {body : List Byte}
    (h : zeros + body.length ≤ s.effectiveCap b) :
    s.deliver b zeros body = (((s.setMem b ((s.mem b).splice 0 (List.replicate zeros 0#8 ++ body))).setLength b
      (zeros + body.length)).setErr .ok) := by
  rw [State.deliver, if_neg (by omega)]
  rfl

theorem State.deliver_of_lt {s : State} {b : Buffer} {zeros : Nat} {body : List Byte}
    (h : s.effectiveCap b < zeros + body.length) :
    s.deliver b zeros body = (s.outputTooSmall b).setErr .outputTooSmall := by
  rw [State.deliver, if_pos h]
  rfl

theorem State.effectiveCap_lt (s : State) (b : Buffer) : s.effectiveCap b < 2 ^ 64 :=
  Nat.lt_of_le_of_lt (Nat.min_le_left _ _) s.ocap.isLt

/-- The result fits: `Delivered` says everything the command's end does. -/
theorem State.deliver_delivered {s : State} {b : Buffer} {zeros : Nat} {body : List Byte}
    (h : zeros + body.length ≤ s.effectiveCap b) :
    Delivered s (s.deliver b zeros body) b (List.replicate zeros 0#8 ++ body) := by
  have hlen : (List.replicate zeros 0#8 ++ body).length = zeros + body.length := by simp
  have hcap := s.effectiveCap_lt b
  have hmem : ∀ b', (s.deliver b zeros body).mem b' =
      if b' = b then (s.mem b).splice 0 (List.replicate zeros 0#8 ++ body) else s.mem b' := by
    intro b'
    rw [State.deliver_of_le h, State.setErr_mem, State.setLength_mem, State.setMem_mem]
  have hep : (s.deliver b zeros body).epoch = s.epoch := by rw [State.deliver_of_le h]; simp
  refine ⟨by omega, ?_, ?_, fun i hi => ?_, fun i hi => ?_, fun b' hb i => ?_, ?_, ?_⟩
  · rw [State.deliver_of_le h]
    exact errBecomes_of_status rfl (by simp)
  · rw [State.deliver_of_le h, hlen]
    cases b <;> exact Nat.mod_eq_of_lt (by omega)
  · rw [State.cell_splice (vs := List.replicate zeros 0#8 ++ body) (start := 0) (by rw [hmem, if_pos rfl]) hep, if_pos (by omega)]
    simp
  · rw [State.cell_splice (vs := List.replicate zeros 0#8 ++ body) (start := 0) (by rw [hmem, if_pos rfl]) hep, if_neg (by omega)]
  · exact State.cell_congr (by rw [hmem, if_neg hb]) hep i
  · rw [State.deliver_of_le h]
    cases b <;> rfl
  · rw [State.deliver_of_le h]
    simp

/-- The result does not fit: `OutputTooSmall` says everything the command's end does. -/
theorem State.deliver_tooSmall {s : State} {b : Buffer} {zeros : Nat} {body : List Byte}
    (h : s.effectiveCap b < zeros + body.length) : OutputTooSmall s (s.deliver b zeros body) b := by
  rw [State.deliver_of_lt h]
  have hmem : ∀ b', ((s.outputTooSmall b).setErr .outputTooSmall).mem b' =
      if b' = b then (s.mem b).splice 0 ((List.range (s.effectiveCap b)).map (Config.freeByte s.draw b)) else s.mem b' := by
    intro b'
    cases b <;> cases b' <;> rfl
  have hep : ((s.outputTooSmall b).setErr .outputTooSmall).epoch = s.epoch := by cases b <;> rfl
  refine ⟨errBecomes_of_status rfl (by cases b <;> rfl), by cases b <;> rfl, fun i hi => ?_, fun i hi => ?_,
    fun b' hb i => ?_, by cases b <;> rfl⟩
  · rw [State.cell_splice (by rw [hmem, if_pos rfl]) hep, if_pos (by simpa using hi)]
    simp [hi]
  · rw [State.cell_splice (by rw [hmem, if_pos rfl]) hep, if_neg (by simpa using hi)]
  · exact State.cell_congr (by rw [hmem, if_neg hb]) hep i

/-! What a delivery never changes -/

@[simp] theorem State.deliver_params (s : State) (b : Buffer) (zeros : Nat) (body : List Byte) :
    (s.deliver b zeros body).params = s.params := by
  rw [State.deliver]
  split <;> cases b <;> rfl

@[simp] theorem State.deliver_w (s : State) (b : Buffer) (zeros : Nat) (body : List Byte) :
    (s.deliver b zeros body).w = s.w := by
  rw [State.deliver]
  split <;> cases b <;> rfl

@[simp] theorem State.deliver_len (s : State) (b : Buffer) (zeros : Nat) (body : List Byte) :
    (s.deliver b zeros body).len = s.len := by
  rw [State.deliver]
  split <;> cases b <;> rfl

@[simp] theorem State.deliver_opa (s : State) (b : Buffer) (zeros : Nat) (body : List Byte) :
    (s.deliver b zeros body).opa = s.opa := by
  rw [State.deliver]
  split <;> cases b <;> rfl

@[simp] theorem State.deliver_opb (s : State) (b : Buffer) (zeros : Nat) (body : List Byte) :
    (s.deliver b zeros body).opb = s.opb := by
  rw [State.deliver]
  split <;> cases b <;> rfl

@[simp] theorem State.deliver_opc (s : State) (b : Buffer) (zeros : Nat) (body : List Byte) :
    (s.deliver b zeros body).opc = s.opc := by
  rw [State.deliver]
  split <;> cases b <;> rfl

@[simp] theorem State.deliver_r0 (s : State) (b : Buffer) (zeros : Nat) (body : List Byte) :
    (s.deliver b zeros body).r0 = s.r0 := by
  rw [State.deliver]
  split <;> cases b <;> rfl

@[simp] theorem State.deliver_r1 (s : State) (b : Buffer) (zeros : Nat) (body : List Byte) :
    (s.deliver b zeros body).r1 = s.r1 := by
  rw [State.deliver]
  split <;> cases b <;> rfl

@[simp] theorem State.deliver_zcnt (s : State) (b : Buffer) (zeros : Nat) (body : List Byte) :
    (s.deliver b zeros body).zcnt = s.zcnt := by
  rw [State.deliver]
  split <;> cases b <;> rfl

@[simp] theorem State.deliver_ocap (s : State) (b : Buffer) (zeros : Nat) (body : List Byte) :
    (s.deliver b zeros body).ocap = s.ocap := by
  rw [State.deliver]
  split <;> cases b <;> rfl

@[simp] theorem State.deliver_epoch (s : State) (b : Buffer) (zeros : Nat) (body : List Byte) :
    (s.deliver b zeros body).epoch = s.epoch := by
  rw [State.deliver]
  split <;> cases b <;> rfl

@[simp] theorem State.deliver_script (s : State) (b : Buffer) (zeros : Nat) (body : List Byte) :
    (s.deliver b zeros body).script = s.script := by
  rw [State.deliver]
  split <;> cases b <;> rfl

@[simp] theorem State.deliver_pos (s : State) (b : Buffer) (zeros : Nat) (body : List Byte) :
    (s.deliver b zeros body).pos = s.pos := by
  rw [State.deliver]
  split <;> cases b <;> rfl

@[simp] theorem State.deliver_reads (s : State) (b : Buffer) (zeros : Nat) (body : List Byte) :
    (s.deliver b zeros body).reads = s.reads := by
  rw [State.deliver]
  split <;> cases b <;> rfl

/-- Two states with the same buffers read the same cells. -/
theorem sameCells_of {s t : State} (hb : t.buf = s.buf) (hd : t.dig = s.dig) (he : t.epoch = s.epoch) : SameCells s t
  | .buf, i => State.cell_congr (b := .buf) hb he i
  | .dig, i => State.cell_congr (b := .dig) hd he i

/-! What a delivery always does -/

/-- A delivery ends in one of two results. -/
theorem State.deliver_errBecomes (s : State) (b : Buffer) (zeros : Nat) (body : List Byte) :
    ∃ e, (e = .ok ∨ e = .outputTooSmall) ∧ ErrBecomes s (s.deliver b zeros body) e := by
  by_cases h : zeros + body.length ≤ s.effectiveCap b
  · exact ⟨_, .inl rfl, (State.deliver_delivered h).2.1⟩
  · exact ⟨_, .inr rfl, (State.deliver_tooSmall (by omega)).1⟩

/-- A delivery splices at most the effective capacity into its own buffer. -/
theorem State.deliver_mem (s : State) (b : Buffer) (zeros : Nat) (body : List Byte) :
    ∃ vs : List Byte, vs.length ≤ s.effectiveCap b ∧
      ∀ b', (s.deliver b zeros body).mem b' = if b' = b then (s.mem b).splice 0 vs else s.mem b' := by
  by_cases h : zeros + body.length ≤ s.effectiveCap b
  · refine ⟨List.replicate zeros 0#8 ++ body, by simpa using h, fun b' => ?_⟩
    rw [State.deliver_of_le h, State.setErr_mem, State.setLength_mem, State.setMem_mem]
  · refine ⟨(List.range (s.effectiveCap b)).map (Config.freeByte s.draw b), by simp, fun b' => ?_⟩
    rw [State.deliver_of_lt (by omega)]
    cases b <;> cases b' <;> rfl

/-- The other buffer's length register stays. -/
theorem State.deliver_length_other {s : State} {b b' : Buffer} (zeros : Nat) (body : List Byte) (h : b' ≠ b) :
    (s.deliver b zeros body).length b' = s.length b' := by
  rw [State.deliver]
  split <;> cases b <;> cases b' <;> first | exact absurd rfl h | rfl

theorem State.draw_le_deliver (s : State) (b : Buffer) (zeros : Nat) (body : List Byte) :
    s.draw ≤ (s.deliver b zeros body).draw := by
  rw [State.deliver]
  split <;> cases b <;> simp [State.outputTooSmall]

end Sys2Proof.Machine
end

