-- ==== Sys2Proof/Laws/BigInt.lean ====
section
/-! SUPPORT. The value a limb string stands for (00_scope.md R8), what the scalar primitives do to it
(41_scalar_primitives.md R101, R103, R105), and everything the three procedures on the limb file can do
(42_bigint_engine.md R125, R131, R137). -/

namespace Sys2Proof.Machine

/-! ## Scalar primitives -/

theorem carryingAdd_fst (a b : Word) : (carryingAdd a b).1.toNat = (a.toNat + b.toNat) % 2 ^ 64 := by
  simp [carryingAdd]

theorem carryingAdd_snd (a b : Word) : (carryingAdd a b).2.toNat = (a.toNat + b.toNat) / 2 ^ 64 := by
  have ha := a.isLt
  have hb := b.isLt
  simp only [carryingAdd, BitVec.toNat_ofNat]
  exact Nat.mod_eq_of_lt (by omega)

theorem carryingAdd_value (a b : Word) :
    (carryingAdd a b).1.toNat + 2 ^ 64 * (carryingAdd a b).2.toNat = a.toNat + b.toNat := by
  rw [carryingAdd_fst, carryingAdd_snd]
  exact Nat.mod_add_div _ _

theorem carryingMul_high_lt (a b c : Word) : (a.toNat * b.toNat + c.toNat) / 2 ^ 64 < 2 ^ 64 := by
  have h : a.toNat * b.toNat ≤ (2 ^ 64 - 1) * (2 ^ 64 - 1) :=
    Nat.mul_le_mul (by have := a.isLt; omega) (by have := b.isLt; omega)
  have := c.isLt
  omega

theorem carryingMul_fst (a b c : Word) : (carryingMul a b c).1.toNat = (a.toNat * b.toNat + c.toNat) % 2 ^ 64 := by
  simp [carryingMul]

theorem carryingMul_snd (a b c : Word) : (carryingMul a b c).2.toNat = (a.toNat * b.toNat + c.toNat) / 2 ^ 64 := by
  simp only [carryingMul, BitVec.toNat_ofNat]
  exact Nat.mod_eq_of_lt (carryingMul_high_lt a b c)

theorem carryingMul_value (a b c : Word) :
    (carryingMul a b c).1.toNat + 2 ^ 64 * (carryingMul a b c).2.toNat = a.toNat * b.toNat + c.toNat := by
  rw [carryingMul_fst, carryingMul_snd]
  exact Nat.mod_add_div _ _

theorem divRem_fst (a b : Word) : (divRem a b).1.toNat = a.toNat / b.toNat := by
  simp only [divRem, BitVec.toNat_ofNat]
  exact Nat.mod_eq_of_lt (Nat.lt_of_le_of_lt (Nat.div_le_self _ _) a.isLt)

theorem divRem_snd (a b : Word) : (divRem a b).2.toNat = a.toNat % b.toNat := by
  simp only [divRem, BitVec.toNat_ofNat]
  exact Nat.mod_eq_of_lt (Nat.lt_of_le_of_lt (Nat.mod_le _ _) a.isLt)

theorem divWide_fst {hi d : Word} (lo : Word) (h : hi.toNat < d.toNat) :
    (divWide hi lo d).1.toNat = (hi.toNat * 2 ^ 64 + lo.toNat) / d.toNat := by
  simp only [divWide, BitVec.toNat_ofNat]
  refine Nat.mod_eq_of_lt (Nat.div_lt_of_lt_mul ?_)
  have := lo.isLt
  calc hi.toNat * 2 ^ 64 + lo.toNat < (hi.toNat + 1) * 2 ^ 64 := by omega
    _ ≤ d.toNat * 2 ^ 64 := Nat.mul_le_mul_right _ h

theorem divWide_snd (hi lo : Word) {d : Word} (h : 0 < d.toNat) :
    (divWide hi lo d).2.toNat = (hi.toNat * 2 ^ 64 + lo.toNat) % d.toNat := by
  simp only [divWide, BitVec.toNat_ofNat]
  exact Nat.mod_eq_of_lt (Nat.lt_trans (Nat.mod_lt _ h) d.isLt)

theorem word_eq_zero_iff (a : Word) : a = 0#64 ↔ a.toNat = 0 :=
  ⟨fun h => by simp [h], fun h => BitVec.eq_of_toNat_eq (by simpa using h)⟩

theorem word_eq_one_iff (a : Word) : a = 1#64 ↔ a.toNat = 1 :=
  ⟨fun h => by simp [h], fun h => BitVec.eq_of_toNat_eq (by simpa using h)⟩

/-! ## The value of limbs -/

@[simp] theorem val_nil : val [] = 0 := rfl

@[simp] theorem val_cons (x : Word) (xs : List Word) : val (x :: xs) = x.toNat + 2 ^ 64 * val xs := rfl

theorem pow_limb_succ (n : Nat) : (2 : Nat) ^ (64 * (n + 1)) = 2 ^ 64 * 2 ^ (64 * n) := by
  rw [Nat.mul_add, Nat.pow_add, Nat.mul_comm, Nat.mul_one]

theorem val_lt (xs : List Word) : val xs < 2 ^ (64 * xs.length) := by
  induction xs with
  | nil => simp
  | cons x xs ih =>
    rw [val_cons, List.length_cons, pow_limb_succ]
    have := x.isLt
    generalize 2 ^ (64 * xs.length) = P at *
    omega

theorem val_append (xs ys : List Word) : val (xs ++ ys) = val xs + 2 ^ (64 * xs.length) * val ys := by
  induction xs with
  | nil => simp
  | cons x xs ih =>
    rw [List.cons_append, val_cons, ih, val_cons, List.length_cons, pow_limb_succ, Nat.mul_add, Nat.mul_assoc, Nat.add_assoc]

@[simp] theorem val_replicate_zero (n : Nat) : val (List.replicate n 0#64) = 0 := by
  induction n with
  | zero => rfl
  | succ n ih => simp [List.replicate_succ, ih]

/-- Only zero limbs have the value 0. -/
theorem eq_replicate_of_val_eq_zero {xs : List Word} (h : val xs = 0) : xs = List.replicate xs.length 0#64 := by
  induction xs with
  | nil => rfl
  | cons x xs ih =>
    rw [val_cons] at h
    have hx : x = 0#64 := (word_eq_zero_iff x).2 (by omega)
    rw [List.length_cons, List.replicate_succ, ← ih (by omega), hx]

/-- The value of `n` limbs, the top one apart. -/
theorem val_take_top {w : List Word} {n : Nat} (h1 : 1 ≤ n) (hn : n ≤ w.length) :
    val (w.take n) = val (w.take (n - 1)) + 2 ^ (64 * (n - 1)) * (w.getD (n - 1) 0#64).toNat := by
  obtain ⟨m, rfl⟩ : ∃ m, n = m + 1 := ⟨n - 1, by omega⟩
  have hm : m < w.length := by omega
  rw [List.take_add_one, val_append, List.length_take, Nat.add_sub_cancel, Nat.min_eq_left (by omega)]
  simp [List.getElem?_eq_getElem hm]

/-! ## The carry chain of R125 -/

theorem propagateCarry_spec (xs : List Word) (c : Word) (hc : c.toNat ≤ 1) :
    (propagateCarry c xs).1.length = xs.length ∧ (propagateCarry c xs).2.toNat ≤ 1 ∧
      val (propagateCarry c xs).1 + 2 ^ (64 * xs.length) * (propagateCarry c xs).2.toNat = val xs + c.toNat := by
  induction xs generalizing c with
  | nil => simpa [propagateCarry] using hc
  | cons x xs ih =>
    rw [propagateCarry]
    split
    · rename_i h1
      have hs := carryingAdd_snd x 1#64
      have hv := carryingAdd_value x 1#64
      have hx := x.isLt
      have h1' : (1#64).toNat = 1 := rfl
      obtain ⟨hl, hc', he⟩ := ih (carryingAdd x 1#64).2 (by omega)
      refine ⟨by simpa using hl, hc', ?_⟩
      simp only [val_cons, List.length_cons, pow_limb_succ]
      rw [(word_eq_one_iff c).1 h1]
      generalize (propagateCarry (carryingAdd x 1#64).2 xs) = q at *
      generalize hP : 2 ^ (64 * xs.length) * q.2.toNat = P at *
      rw [Nat.mul_assoc, hP]
      omega
    · rename_i h1
      have : c.toNat = 0 := by
        have := mt (word_eq_one_iff c).2 h1
        omega
      simp [this]

/-- Everything inplace_add can do, on at least two limbs that exist. -/
theorem inplaceAdd_cases {w : List Word} {n : Nat} (s : Word) (h2 : 2 ≤ n) (hn : n ≤ w.length) :
    (2 ^ (64 * n) ≤ val (w.take n) + s.toNat ∧ inplaceAdd w n s = .error .addCarry) ∨
      ∃ w', inplaceAdd w n s = .ok w' ∧ w'.length = w.length ∧ w'.drop n = w.drop n ∧
        val (w.take n) + s.toNat < 2 ^ (64 * n) ∧ val (w'.take n) = val (w.take n) + s.toNat := by
  rw [inplaceAdd, if_neg (by omega)]
  match ht : w.take n with
  | [] =>
    have := congrArg List.length ht
    simp only [List.length_take, List.length_nil] at this
    omega
  | x :: xs =>
    have hlen : xs.length + 1 = n := by
      have := congrArg List.length ht
      simp only [List.length_take, List.length_cons] at this
      omega
    have hs := carryingAdd_snd x s
    have hv := carryingAdd_value x s
    have hx := x.isLt
    have hs' := s.isLt
    obtain ⟨hl, hc, he⟩ := propagateCarry_spec xs (carryingAdd x s).2 (by omega)
    have hlt := val_lt ((carryingAdd x s).1 :: (propagateCarry (carryingAdd x s).2 xs).1)
    have hval : val ((carryingAdd x s).1 :: (propagateCarry (carryingAdd x s).2 xs).1) +
        2 ^ (64 * n) * (propagateCarry (carryingAdd x s).2 xs).2.toNat = val (x :: xs) + s.toNat := by
      rw [← hlen, pow_limb_succ, val_cons, val_cons]
      generalize (propagateCarry (carryingAdd x s).2 xs) = q at *
      generalize hP : 2 ^ (64 * xs.length) * q.2.toNat = P at *
      rw [Nat.mul_assoc, hP]
      omega
    rw [List.length_cons, hl, hlen] at hlt
    dsimp only
    generalize (propagateCarry (carryingAdd x s).2 xs) = q at *
    split
    · rename_i h1
      rw [(word_eq_one_iff _).1 h1] at hval
      exact .inl ⟨by omega, rfl⟩
    · rename_i h1
      have h0 : q.2.toNat = 0 := by
        have := mt (word_eq_one_iff q.2).2 h1
        omega
      rw [h0, Nat.mul_zero, Nat.add_zero] at hval
      have hq : ((carryingAdd x s).1 :: q.1).length = n := by rw [List.length_cons, hl, hlen]
      refine .inr ⟨_, rfl, ?_, ?_, by omega, ?_⟩
      · rw [List.length_append, hq, List.length_drop]
        omega
      · rw [List.drop_left' hq]
      · rw [List.take_left' hq, hval]

theorem inplaceAdd_short {w : List Word} {n : Nat} (s : Word) (h : n < 2) : inplaceAdd w n s = .error .addShort := by
  rw [inplaceAdd, if_pos h]

/-! ## The multiplication of R131 -/

theorem mulLimbs_spec (s : Word) (xs : List Word) (c : Word) :
    (mulLimbs s c xs).1.length = xs.length ∧
      val (mulLimbs s c xs).1 + 2 ^ (64 * xs.length) * (mulLimbs s c xs).2.toNat = val xs * s.toNat + c.toNat := by
  induction xs generalizing c with
  | nil => simp [mulLimbs]
  | cons x xs ih =>
    obtain ⟨hl, he⟩ := ih (carryingMul x s c).2
    have hv := carryingMul_value x s c
    refine ⟨by simpa [mulLimbs] using hl, ?_⟩
    simp only [mulLimbs, val_cons, List.length_cons, pow_limb_succ]
    generalize (mulLimbs s (carryingMul x s c).2 xs) = q at *
    generalize hP : 2 ^ (64 * xs.length) * q.2.toNat = P at *
    rw [Nat.mul_assoc, hP, Nat.add_mul, Nat.mul_assoc]
    omega

/-- Everything inplace_mul can do, on at least one limb that exists. -/
theorem inplaceMul_cases {w : List Word} {n : Nat} (s : Word) (h1 : 1 ≤ n) (hn : n ≤ w.length) :
    (w.getD (n - 1) 0#64 ≠ 0#64 ∧ inplaceMul w n s = .error .mulTop) ∨
      (w.getD (n - 1) 0#64 = 0#64 ∧
      ∃ w', inplaceMul w n s = .ok w' ∧ w'.length = w.length ∧ w'.drop n = w.drop n ∧
        val (w'.take n) = val (w.take n) * s.toNat) := by
  rw [inplaceMul, if_neg (by omega)]
  split
  · rename_i h
    exact .inl ⟨h, rfl⟩
  · rename_i h
    have h0 : w.getD (n - 1) 0#64 = 0#64 := by simpa using h
    obtain ⟨hl, he⟩ := mulLimbs_spec s (w.take (n - 1)) 0#64
    rw [List.length_take, Nat.min_eq_left (by omega)] at hl he
    dsimp only
    generalize mulLimbs s 0#64 (w.take (n - 1)) = q at *
    have hq : (q.1 ++ [q.2]).length = n := by
      rw [List.length_append, hl, List.length_singleton]
      omega
    refine .inr ⟨h0, _, rfl, ?_, ?_, ?_⟩
    · rw [List.append_cons, List.length_append, hq, List.length_drop]
      omega
    · rw [List.append_cons, List.drop_left' hq]
    · rw [List.append_cons, List.take_left' hq, val_append, hl, val_take_top h1 hn, h0]
      simpa using he

theorem inplaceMul_empty (w : List Word) (s : Word) : inplaceMul w 0 s = .error .mulEmpty := rfl

/-! ## The long division of R137 -/

theorem divLimbs_spec {d : Word} (hd : 0 < d.toNat) (xs : List Word) :
    (divLimbs d xs).1.length = xs.length ∧ (divLimbs d xs).2.toNat = val xs % d.toNat ∧
      val (divLimbs d xs).1 = val xs / d.toNat := by
  induction xs with
  | nil => simp [divLimbs]
  | cons x xs ih =>
    obtain ⟨hl, hr, hq⟩ := ih
    have hlt : (divLimbs d xs).2.toNat < d.toNat := hr ▸ Nat.mod_lt _ hd
    have h1 := divWide_fst x hlt
    have h2 := divWide_snd (divLimbs d xs).2 x hd
    have hsplit : x.toNat + 2 ^ 64 * val xs =
        d.toNat * (2 ^ 64 * val (divLimbs d xs).1) + ((divLimbs d xs).2.toNat * 2 ^ 64 + x.toNat) := by
      have hdm := Nat.div_add_mod (val xs) d.toNat
      rw [← hq, ← hr] at hdm
      generalize divLimbs d xs = q at *
      have hm : d.toNat * (2 ^ 64 * val q.1) = 2 ^ 64 * (d.toNat * val q.1) := Nat.mul_left_comm _ _ _
      omega
    refine ⟨by simpa [divLimbs] using hl, ?_, ?_⟩
    · simp only [divLimbs, val_cons]
      rw [h2, hsplit, Nat.mul_add_mod]
    · simp only [divLimbs, val_cons]
      rw [h1, hsplit, Nat.mul_add_div hd, Nat.add_comm]

/-- Everything div_rem_scalar can do, on at least one limb that exists. -/
theorem divRemScalar_cases {w : List Word} {n : Nat} (d : Word) (h1 : 1 ≤ n) (hn : n ≤ w.length) :
    (d = 0#64 ∧ divRemScalar w n d = .error .divZero) ∨
      (d ≠ 0#64 ∧ ∃ w' r, divRemScalar w n d = .ok (w', r) ∧ w'.length = w.length ∧ w'.drop n = w.drop n ∧
        r.toNat = val (w.take n) % d.toNat ∧ val (w'.take n) = val (w.take n) / d.toNat) := by
  rw [divRemScalar, if_neg (by omega)]
  split
  · rename_i h
    exact .inl ⟨h, rfl⟩
  · rename_i h
    have hd : 0 < d.toNat := Nat.pos_of_ne_zero (mt (word_eq_zero_iff d).2 h)
    obtain ⟨hl, hr, hq⟩ := divLimbs_spec hd (w.take n)
    rw [List.length_take, Nat.min_eq_left hn] at hl
    refine .inr ⟨h, _, _, rfl, ?_, ?_, hr, ?_⟩
    · rw [List.length_append, hl, List.length_drop]
      omega
    · rw [List.drop_left' hl]
    · rw [List.take_left' hl, hq]

theorem divRemScalar_empty (w : List Word) (d : Word) : divRemScalar w 0 d = .error .divEmpty := rfl

end Sys2Proof.Machine
end

