-- ==== Sys2Proof/Laws/Strings.lean ====
section
/-! SUPPORT. Byte and digit strings: the number a string stands for (00_scope.md R8), its leading zeros, the shortest
string of a number, the ten digits of a chunk (43_chunked_converter.md R155) and the byte-to-limb map (20_memory.md
R55). -/

namespace Sys2Proof.Machine

/-! ## The value of a string -/

@[simp] theorem stringValue_nil (b : Nat) : stringValue b [] = 0 := rfl

theorem stringValue_cons (b : Nat) (d : Byte) (ds : List Byte) :
    stringValue b (d :: ds) = d.toNat * b ^ ds.length + stringValue b ds := rfl

theorem stringValue_append (b : Nat) (xs ys : List Byte) :
    stringValue b (xs ++ ys) = stringValue b xs * b ^ ys.length + stringValue b ys := by
  induction xs with
  | nil => simp
  | cons x xs ih =>
    rw [List.cons_append, stringValue_cons, ih, stringValue_cons, List.length_append, Nat.pow_add, Nat.add_mul,
      Nat.mul_assoc, Nat.add_assoc]

/-- Horner's step: one element more at the right. -/
theorem stringValue_concat (b : Nat) (xs : List Byte) (d : Byte) :
    stringValue b (xs ++ [d]) = stringValue b xs * b + d.toNat := by
  rw [stringValue_append]
  simp [stringValue_cons]

@[simp] theorem stringValue_replicate_zero (b n : Nat) (ds : List Byte) :
    stringValue b (List.replicate n 0#8 ++ ds) = stringValue b ds := by
  induction n with
  | zero => simp
  | succ n ih => simp [List.replicate_succ, stringValue_cons, ih]

theorem stringValue_lt {b : Nat} {ds : List Byte} (h : ∀ d ∈ ds, d.toNat < b) : stringValue b ds < b ^ ds.length := by
  induction ds with
  | nil => simp
  | cons d ds ih =>
    have hd := h d (by simp)
    have hds := ih fun x hx => h x (by simp [hx])
    rw [stringValue_cons, List.length_cons, Nat.pow_succ]
    calc d.toNat * b ^ ds.length + stringValue b ds < (d.toNat + 1) * b ^ ds.length := by rw [Nat.add_mul]; omega
      _ ≤ b * b ^ ds.length := Nat.mul_le_mul_right _ hd
      _ = b ^ ds.length * b := Nat.mul_comm _ _

theorem byte_lt (ds : List Byte) : ∀ d ∈ ds, d.toNat < 256 := fun d _ => d.isLt

/-- Two strings of one length and one value are equal. -/
theorem stringValue_inj {b : Nat} {xs ys : List Byte} (hl : xs.length = ys.length) (hx : ∀ d ∈ xs, d.toNat < b)
    (hy : ∀ d ∈ ys, d.toNat < b) (h : stringValue b xs = stringValue b ys) : xs = ys := by
  induction xs generalizing ys with
  | nil => cases ys with
    | nil => rfl
    | cons y ys => simp at hl
  | cons x xs ih => cases ys with
    | nil => simp at hl
    | cons y ys =>
      have hl' : xs.length = ys.length := by simpa using hl
      have h1 := stringValue_lt (b := b) (ds := xs) fun d hd => hx d (by simp [hd])
      have h2 := stringValue_lt (b := b) (ds := ys) fun d hd => hy d (by simp [hd])
      rw [stringValue_cons, stringValue_cons, hl'] at h
      rw [hl'] at h1
      have hpos : 0 < b ^ ys.length := by omega
      have hxy : x.toNat = y.toNat := by
        have e1 : (x.toNat * b ^ ys.length + stringValue b xs) / b ^ ys.length = x.toNat := by
          rw [Nat.mul_comm, Nat.mul_add_div hpos, Nat.div_eq_of_lt h1, Nat.add_zero]
        have e2 : (y.toNat * b ^ ys.length + stringValue b ys) / b ^ ys.length = y.toNat := by
          rw [Nat.mul_comm, Nat.mul_add_div hpos, Nat.div_eq_of_lt h2, Nat.add_zero]
        rw [← e1, h, e2]
      rw [hxy] at h
      rw [BitVec.eq_of_toNat_eq hxy,
        ih hl' (fun d hd => hx d (by simp [hd])) (fun d hd => hy d (by simp [hd])) (by omega)]

/-! ## The least number of digits -/

theorem leastCount_unique {b v m n : Nat} (hm : LeastCount b v m) (hn : LeastCount b v n) : m = n :=
  Nat.le_antisymm (hm.2 n hn.1) (hn.2 m hm.1)

/-- A string with no leading zero is as short as its value allows. -/
theorem leastCount_of_head {b : Nat} {ds : List Byte} (hb : 2 ≤ b) (h : ∀ d ∈ ds, d.toNat < b)
    (hh : ds = [] ∨ ds.getD 0 0#8 ≠ 0#8) : LeastCount b (stringValue b ds) ds.length := by
  refine ⟨stringValue_lt h, fun m hm => ?_⟩
  cases ds with
  | nil => simp
  | cons d ds =>
    have hd : 1 ≤ d.toNat := by
      obtain hh | hh := hh
      · simp at hh
      · refine Nat.pos_of_ne_zero fun h0 => hh ?_
        exact BitVec.eq_of_toNat_eq (by simpa using h0)
    have hle : b ^ ds.length ≤ stringValue b (d :: ds) := by
      rw [stringValue_cons]
      exact Nat.le_trans (Nat.le_mul_of_pos_left _ hd) (Nat.le_add_right _ _)
    have := (Nat.pow_lt_pow_iff_right (by omega)).1 (Nat.lt_of_le_of_lt hle hm)
    simpa using this

theorem lowDigits_spec {b : Nat} (h2 : 2 ≤ b) (h256 : b ≤ 256) (fuel v : Nat) (hv : v < b ^ fuel) :
    stringValue b (lowDigits b fuel v).reverse = v ∧ (∀ d ∈ (lowDigits b fuel v).reverse, d.toNat < b) ∧
      ((lowDigits b fuel v).reverse = [] ∨ (lowDigits b fuel v).reverse.getD 0 0#8 ≠ 0#8) := by
  induction fuel generalizing v with
  | zero =>
    have : v = 0 := by simpa using hv
    simp [lowDigits, this]
  | succ fuel ih =>
    rw [lowDigits]
    split
    · rename_i h0
      simp [h0]
    · rename_i h0
      have hdiv : v / b < b ^ fuel := Nat.div_lt_of_lt_mul (by rw [Nat.pow_succ, Nat.mul_comm] at hv; exact hv)
      obtain ⟨he, hlt, hh⟩ := ih (v / b) hdiv
      have hm : (BitVec.ofNat 8 (v % b)).toNat = v % b := by
        rw [BitVec.toNat_ofNat]
        exact Nat.mod_eq_of_lt (Nat.lt_of_lt_of_le (Nat.mod_lt _ (by omega)) h256)
      rw [List.reverse_cons]
      refine ⟨?_, ?_, .inr ?_⟩
      · rw [stringValue_concat, he, hm, Nat.mul_comm]
        exact Nat.div_add_mod v b
      · intro d hd
        rw [List.mem_append, List.mem_singleton] at hd
        obtain hd | rfl := hd
        · exact hlt d hd
        · rw [hm]
          exact Nat.mod_lt _ (by omega)
      · cases hr : (lowDigits b fuel (v / b)).reverse with
        | nil =>
          rw [hr] at he
          simp only [stringValue_nil] at he
          have hvb : v < b := by
            by_contra hc
            have := Nat.div_pos (Nat.le_of_not_lt hc) (by omega)
            omega
          intro hz
          have hz' : (BitVec.ofNat 8 (v % b)).toNat = 0 := congrArg BitVec.toNat hz
          rw [hm, Nat.mod_eq_of_lt hvb] at hz'
          exact h0 hz'
        | cons x xs =>
          rw [hr] at hh
          simpa using hh

/-- The shortest bytes of some limbs stand for their value, and are as few as it allows. -/
theorem shortestBytes_spec (xs : List Word) :
    be (shortestBytes xs) = val xs ∧ LeastCount 256 (val xs) (shortestBytes xs).length ∧
      (shortestBytes xs = [] ∨ (shortestBytes xs).getD 0 0#8 ≠ 0#8) := by
  have hlt : val xs < 256 ^ (8 * xs.length) := by
    have := val_lt xs
    rwa [show (256 : Nat) ^ (8 * xs.length) = 2 ^ (64 * xs.length) by
      rw [show (256 : Nat) = 2 ^ 8 by norm_num, ← Nat.pow_mul]; congr 1; omega]
  obtain ⟨he, hd, hh⟩ := lowDigits_spec (b := 256) (by omega) (by omega) (8 * xs.length) (val xs) hlt
  have := leastCount_of_head (by omega) hd hh
  rw [he] at this
  exact ⟨he, this, hh⟩

/-! ## Leading zeros -/

theorem leadingZeros_le (l : List Byte) : leadingZeros l ≤ l.length :=
  (List.takeWhile_sublist _).length_le

/-- A string is its leading zeros and the rest. -/
theorem eq_zeros_append (l : List Byte) :
    l = List.replicate (leadingZeros l) 0#8 ++ l.drop (leadingZeros l) := by
  induction l with
  | nil => rfl
  | cons x l ih =>
    by_cases hx : x = 0#8
    · subst hx
      have : leadingZeros (0#8 :: l) = leadingZeros l + 1 := by simp [leadingZeros]
      rw [this, List.replicate_succ, List.cons_append, List.drop_succ_cons, ← ih]
    · have : leadingZeros (x :: l) = 0 := by simp [leadingZeros, hx]
      simp [this]

theorem leadingZeros_count (l : List Byte) : LeadingZeroCount l (leadingZeros l) := by
  refine ⟨leadingZeros_le l, ?_, ?_⟩
  · intro i hi
    have := leadingZeros_le l
    rw [eq_zeros_append l]
    simp [List.getElem?_append, hi]
  · induction l with
    | nil => simp [leadingZeros]
    | cons x l ih =>
      by_cases hx : x = 0#8
      · subst hx
        have : leadingZeros (0#8 :: l) = leadingZeros l + 1 := by simp [leadingZeros]
        simpa [this] using ih
      · have : leadingZeros (x :: l) = 0 := by simp [leadingZeros, hx]
        simp [this, hx]

theorem leadingZeroCount_unique {l : List Byte} {j k : Nat} (hj : LeadingZeroCount l j) (hk : LeadingZeroCount l k) :
    j = k := by
  have key : ∀ {a b : Nat}, LeadingZeroCount l a → LeadingZeroCount l b → ¬ a < b := by
    intro a b ha hb h
    have h1 := hb.2.1 a h
    have hal : a < l.length := Nat.lt_of_lt_of_le h hb.1
    obtain h2 | h2 := ha.2.2
    · omega
    · refine h2 ?_
      simpa [List.getD_eq_getElem?_getD, List.getElem?_eq_getElem hal] using h1
  have := key hj hk
  have := key hk hj
  omega

theorem leadingZeroCount_iff {l : List Byte} {k : Nat} : LeadingZeroCount l k ↔ k = leadingZeros l :=
  ⟨fun h => leadingZeroCount_unique h (leadingZeros_count l), fun h => h ▸ leadingZeros_count l⟩

/-- The significant part has no leading zero. -/
theorem drop_leadingZeros_head (l : List Byte) :
    l.drop (leadingZeros l) = [] ∨ (l.drop (leadingZeros l)).getD 0 0#8 ≠ 0#8 := by
  obtain h | h := (leadingZeros_count l).2.2
  · exact .inl (List.drop_eq_nil_of_le (by omega))
  · exact .inr (by simpa [List.getD_eq_getElem?_getD, List.getElem?_drop] using h)

theorem stringValue_drop_leadingZeros (b : Nat) (l : List Byte) :
    stringValue b (l.drop (leadingZeros l)) = stringValue b l := by
  conv_rhs => rw [eq_zeros_append l]
  rw [stringValue_replicate_zero]

/-- Zeros put before a string with no leading zero are its leading zeros. -/
theorem leadingZeroCount_zeros_append (k : Nat) {l : List Byte} (h : l = [] ∨ l.getD 0 0#8 ≠ 0#8) :
    LeadingZeroCount (List.replicate k 0#8 ++ l) k := by
  refine ⟨by simp, fun i hi => ?_, ?_⟩
  · simp [List.getElem?_append, hi]
  · obtain rfl | h := h
    · simp
    · exact .inr (by simpa [List.getD_eq_getElem?_getD, List.getElem?_append] using h)

theorem dropWhile_zero (l : List Byte) : l.dropWhile (· == 0#8) = l.drop (leadingZeros l) := by
  induction l with
  | nil => rfl
  | cons x l ih =>
    by_cases hx : x = 0#8
    · subst hx
      have : leadingZeros (0#8 :: l) = leadingZeros l + 1 := by simp [leadingZeros]
      simpa [this] using ih
    · have : leadingZeros (x :: l) = 0 := by simp [leadingZeros, hx]
      simp [this, hx]

/-! ## The ten digits of a chunk -/

theorem chunkLoop_spec (k : Nat) (x : Word) :
    (chunkLoop k x).length = k ∧ ∀ j, j < k → ((chunkLoop k x).getD j 0#8).toNat = x.toNat / 58 ^ j % 58 := by
  induction k generalizing x with
  | zero => simp [chunkLoop]
  | succ k ih =>
    rw [chunkLoop]
    split
    · rename_i h0
      subst h0
      refine ⟨by simp, fun j hj => ?_⟩
      simp [List.getD_eq_getElem?_getD, hj]
    · obtain ⟨hl, hd⟩ := ih (divRem x Config.base).1
      have h1 := divRem_fst x Config.base
      have h2 := divRem_snd x Config.base
      rw [show Config.base.toNat = 58 from rfl] at h1 h2
      refine ⟨by simpa using hl, fun j hj => ?_⟩
      cases j with
      | zero =>
        rw [List.getD_cons_zero, BitVec.toNat_setWidth, h2, Nat.pow_zero, Nat.div_one]
        omega
      | succ j =>
        rw [List.getD_cons_succ, hd j (by omega), h1, Nat.div_div_eq_div_mul, Nat.pow_succ, Nat.mul_comm]

@[simp] theorem encodeChunk_length (v : Word) : (encodeChunk v).length = 10 := by
  rw [encodeChunk, List.length_reverse]
  exact (chunkLoop_spec 10 v).1

theorem encodeChunk_digit (v : Word) {j : Nat} (hj : j ≤ 9) :
    ((encodeChunk v).getD (9 - j) 0#8).toNat = v.toNat / 58 ^ j % 58 := by
  obtain ⟨hl, hd⟩ := chunkLoop_spec 10 v
  rw [← hd j (by omega), encodeChunk, List.getD_eq_getElem?_getD, List.getD_eq_getElem?_getD,
    show Config.chunkSize = 10 from rfl, List.getElem?_reverse (by omega), hl]
  congr 3
  omega

theorem encodeChunk_lt (v : Word) : ∀ d ∈ encodeChunk v, d.toNat < 58 := by
  intro d hd
  obtain ⟨i, hi, rfl⟩ := List.mem_iff_getElem.1 hd
  rw [encodeChunk_length] at hi
  have := encodeChunk_digit v (j := 9 - i) (by omega)
  rw [show 9 - (9 - i) = i by omega, List.getD_eq_getElem?_getD, List.getElem?_eq_getElem (by simpa using hi),
    Option.getD_some] at this
  rw [this]
  exact Nat.mod_lt _ (by omega)

theorem b58_reverse_of_digits (l : List Byte) (x : Nat)
    (h : ∀ j, j < l.length → (l.getD j 0#8).toNat = x / 58 ^ j % 58) : stringValue 58 l.reverse = x % 58 ^ l.length := by
  induction l generalizing x with
  | nil => simp [Nat.mod_one]
  | cons d l ih =>
    have h0 := h 0 (by simp)
    rw [List.getD_cons_zero, Nat.pow_zero, Nat.div_one] at h0
    rw [List.reverse_cons, stringValue_concat, ih (x / 58), h0, List.length_cons, Nat.pow_succ, Nat.mul_comm _ 58,
      Nat.mul_comm (58 ^ _) 58, Nat.mod_mul, Nat.add_comm]
    intro j hj
    have := h (j + 1) (by simpa using hj)
    rw [List.getD_cons_succ, Nat.pow_succ, Nat.mul_comm, ← Nat.div_div_eq_div_mul] at this
    exact this

theorem b58_encodeChunk (v : Word) : b58 (encodeChunk v) = v.toNat % 58 ^ 10 := by
  obtain ⟨hl, hd⟩ := chunkLoop_spec 10 v
  have := b58_reverse_of_digits (chunkLoop 10 v) v.toNat (by rw [hl]; exact hd)
  rwa [hl] at this

/-! ## Bytes and limbs -/

theorem littleEndian_lt (bs : List Byte) : littleEndian bs < 256 ^ bs.length := by
  induction bs with
  | nil => simp [littleEndian]
  | cons b bs ih =>
    rw [littleEndian, List.length_cons, Nat.pow_succ]
    have := b.isLt
    omega

theorem littleEndian_append (xs ys : List Byte) :
    littleEndian (xs ++ ys) = littleEndian xs + 256 ^ xs.length * littleEndian ys := by
  induction xs with
  | nil => simp [littleEndian]
  | cons x xs ih =>
    rw [List.cons_append, littleEndian, ih, littleEndian, List.length_cons, Nat.pow_succ, Nat.mul_add, ← Nat.mul_assoc,
      Nat.mul_comm 256 (256 ^ _), Nat.add_assoc]

/-- The bytes given by their distance from the end stand for the big-endian number. -/
theorem littleEndian_reverse (bs : List Byte) : littleEndian bs.reverse = be bs := by
  induction bs with
  | nil => rfl
  | cons b bs ih =>
    rw [List.reverse_cons, littleEndian_append, ih, List.length_reverse, be, be, stringValue_cons]
    simp only [littleEndian, Nat.mul_zero, Nat.add_zero]
    rw [Nat.mul_comm, Nat.add_comm]

@[simp] theorem packLimbs_length (n : Nat) (bs : List Byte) : (packLimbs n bs).length = n := by
  induction n generalizing bs with
  | zero => rfl
  | succ n ih => simp [packLimbs, ih]

theorem val_packLimbs (n : Nat) (bs : List Byte) (h : bs.length ≤ 8 * n) : val (packLimbs n bs) = littleEndian bs := by
  induction n generalizing bs with
  | zero =>
    have : bs = [] := List.length_eq_zero_iff.1 (by omega)
    simp [this, packLimbs, littleEndian]
  | succ n ih =>
    have hlt : littleEndian (bs.take 8) < 2 ^ 64 := by
      have h1 := littleEndian_lt (bs.take 8)
      have h2 : (256 : Nat) ^ (bs.take 8).length ≤ 256 ^ 8 := Nat.pow_le_pow_right (by omega) (by simp)
      omega
    rw [packLimbs, val_cons, ih (bs.drop 8) (by simp; omega), BitVec.toNat_ofNat, Nat.mod_eq_of_lt hlt]
    conv_rhs => rw [← List.take_append_drop 8 bs, littleEndian_append]
    by_cases h8 : 8 ≤ bs.length
    · simp [List.length_take, Nat.min_eq_left h8]
    · rw [List.drop_eq_nil_of_le (by omega)]
      simp [littleEndian]

theorem littleEndian_byte (bs : List Byte) (j : Nat) : littleEndian bs / 256 ^ j % 256 = (bs.getD j 0#8).toNat := by
  induction bs generalizing j with
  | nil => simp [littleEndian]
  | cons b bs ih =>
    have := b.isLt
    cases j with
    | zero =>
      rw [littleEndian, Nat.pow_zero, Nat.div_one, List.getD_cons_zero]
      omega
    | succ j =>
      rw [List.getD_cons_succ, ← ih j, Nat.pow_succ, Nat.mul_comm, ← Nat.div_div_eq_div_mul, littleEndian]
      congr 2
      omega

/-- Byte `j` stands at bits `8*(j mod 8) + 7 : 8*(j mod 8)` of limb `j div 8` (R55). -/
theorem packLimbs_byte (n : Nat) (bs : List Byte) (j : Nat) (hj : j < 8 * n) :
    ((packLimbs n bs).getD (j / 8) 0#64).extractLsb' (8 * (j % 8)) 8 = bs.getD j 0#8 := by
  induction n generalizing bs j with
  | zero => omega
  | succ n ih =>
    by_cases h8 : j < 8
    · have hlt : littleEndian (bs.take 8) < 2 ^ 64 := by
        have h1 := littleEndian_lt (bs.take 8)
        have h2 : (256 : Nat) ^ (bs.take 8).length ≤ 256 ^ 8 := Nat.pow_le_pow_right (by omega) (by simp)
        omega
      rw [Nat.div_eq_of_lt h8, Nat.mod_eq_of_lt h8, packLimbs, List.getD_cons_zero]
      apply BitVec.eq_of_toNat_eq
      rw [BitVec.extractLsb'_toNat, BitVec.toNat_ofNat, Nat.mod_eq_of_lt hlt, Nat.shiftRight_eq_div_pow,
        Nat.pow_mul, show (2 : Nat) ^ 8 = 256 by norm_num, littleEndian_byte, List.getD_eq_getElem?_getD,
        List.getElem?_take_of_lt h8, ← List.getD_eq_getElem?_getD]
    · have hd : j / 8 = (j - 8) / 8 + 1 := by omega
      have hm : j % 8 = (j - 8) % 8 := by omega
      rw [hd, hm, packLimbs, List.getD_cons_succ, ih (bs.drop 8) (j - 8) (by omega)]
      simp [List.getD_eq_getElem?_getD, List.getElem?_drop, show 8 + (j - 8) = j by omega]

end Sys2Proof.Machine
end

