-- ==== Sys2Proof/Laws/Converter.lean ====
section
/-! SUPPORT. Everything the shared procedures of the converter can do (43_chunked_converter.md): the load of R160, the
serialisation of R165, the division loop of R170 and the accumulation loop of R175. -/

namespace Sys2Proof.Machine

/-! ## Load (R160) -/

/-- The load of R160: two data errors before any write, or the number of the byte string in all NLIMB limbs. -/
theorem State.loadBe_cases (s : State) :
    ((s.blen.toNat > s.params.bcap ∨
        s.blen.toNat - leadingZeros (s.cells .buf s.blen.toNat) > 8 * s.params.nlimb) ∧
      s.loadBe = .error .inputTooLarge) ∨
    (s.blen.toNat ≤ s.params.bcap ∧
      s.blen.toNat - leadingZeros (s.cells .buf s.blen.toNat) ≤ 8 * s.params.nlimb ∧
      ∃ w, s.loadBe = .ok (s.setNumber (leadingZeros (s.cells .buf s.blen.toNat)) w) ∧ w.length = s.params.nlimb ∧
        val w = be (s.cells .buf s.blen.toNat) ∧
        w = packLimbs s.params.nlimb
          ((s.cells .buf s.blen.toNat).drop (leadingZeros (s.cells .buf s.blen.toNat))).reverse) := by
  rw [State.loadBe]
  split
  · rename_i h
    exact .inl ⟨.inl h, rfl⟩
  · rename_i h
    dsimp only
    split
    · rename_i h'
      exact .inl ⟨.inr h', rfl⟩
    · rename_i h'
      refine .inr ⟨by omega, by omega, _, rfl, packLimbs_length _ _, ?_, rfl⟩
      rw [val_packLimbs _ _ (by simp; omega), littleEndian_reverse, be, stringValue_drop_leadingZeros, be]

/-! ## Serialise (R165) -/

theorem State.storeBe_of_gt {s : State} (h : s.len.toNat > s.params.nlimb) : s.storeBe = s.raiseFatal .lenRange := by
  rw [State.storeBe, State.lenOutOfRange, if_pos (by simpa using h)]

theorem State.storeBe_of_le {s : State} (h : s.len.toNat ≤ s.params.nlimb) :
    s.storeBe = s.deliver .buf s.zcnt.toNat (shortestBytes s.active) := by
  rw [State.storeBe, State.lenOutOfRange, if_neg (by simpa using h)]

/-! ## The division loop of ENC58 (R170) -/

/-- The number that chunks stand for, the least significant first. -/
def chunksValue : List Word → Nat
  | [] => 0
  | c :: cs => c.toNat + 58 ^ 10 * chunksValue cs

theorem chunkDivisor_toNat : Config.chunkDivisor.toNat = 58 ^ 10 := by decide

/-- With fuel for the value, the loop leaves 0 and the chunks of the value, the last of them not 0. -/
theorem divideOut_spec {n : Nat} (fuel : Nat) (w : List Word) (hn : n ≤ w.length)
    (hv : val (w.take n) < (58 ^ 10) ^ fuel) :
    ∃ chunks w', divideOut n fuel w = .ok (chunks, w') ∧ w'.length = w.length ∧ w'.drop n = w.drop n ∧
      val (w'.take n) = 0 ∧ (∀ c ∈ chunks, c.toNat < 58 ^ 10) ∧ chunksValue chunks = val (w.take n) ∧
      chunks.getLast? ≠ some 0#64 := by
  induction fuel generalizing w with
  | zero =>
    have h0 : val (w.take n) = 0 := by simpa using hv
    exact ⟨[], w, rfl, rfl, rfl, h0, by simp, by simp [chunksValue, h0], by simp⟩
  | succ fuel ih =>
    rw [divideOut]
    split
    · rename_i h0
      exact ⟨[], w, rfl, rfl, rfl, h0, by simp, by simp [chunksValue, h0], by simp⟩
    · rename_i h0
      have h1 : 1 ≤ n := by
        refine Nat.pos_of_ne_zero fun h => h0 ?_
        simp [h]
      obtain ⟨hd, -⟩ | ⟨-, w1, r, he, hl, hdrop, hr, hq⟩ := divRemScalar_cases Config.chunkDivisor h1 hn
      · exact absurd hd (by decide)
      rw [chunkDivisor_toNat] at hr hq
      have hq' : val (w1.take n) < (58 ^ 10) ^ fuel := by
        rw [hq]
        exact Nat.div_lt_of_lt_mul (by rw [Nat.pow_succ, Nat.mul_comm] at hv; exact hv)
      obtain ⟨cs, w2, he2, hl2, hdrop2, hz, hlt, hval, hlast⟩ := ih w1 (by omega) hq'
      refine ⟨r :: cs, w2, ?_, by omega, by rw [hdrop2, hdrop], hz, ?_, ?_, ?_⟩
      · rw [he]
        dsimp only
        rw [he2]
      · intro c hc
        rw [List.mem_cons] at hc
        obtain rfl | hc := hc
        · rw [hr]
          exact Nat.mod_lt _ (by omega)
        · exact hlt c hc
      · rw [chunksValue, hval, hq, hr]
        exact Nat.mod_add_div _ _
      · cases cs with
        | nil =>
          simp only [chunksValue] at hval
          rw [← hval] at hq
          have := Nat.mod_add_div (val (w.take n)) (58 ^ 10)
          rw [← hr, ← hq] at this
          simp only [List.getLast?_singleton, ne_eq, Option.some.injEq]
          intro h
          rw [h] at this
          exact h0 (by simpa using this.symm)
        | cons c cs => simpa [List.getLast?_cons_cons] using hlast

/-- Two passes for each limb are enough. -/
theorem divideOut_fuel {n : Nat} {w : List Word} (hn : n ≤ w.length) : val (w.take n) < (58 ^ 10) ^ (2 * n) := by
  have h := val_lt (w.take n)
  rw [List.length_take, Nat.min_eq_left hn] at h
  refine Nat.lt_of_lt_of_le h ?_
  rw [Nat.pow_mul, Nat.pow_mul]
  exact Nat.pow_le_pow_left (by norm_num) n

theorem stringValue_chunks (cs : List Word) (h : ∀ c ∈ cs, c.toNat < 58 ^ 10) :
    stringValue 58 (cs.reverse.flatMap encodeChunk) = chunksValue cs := by
  induction cs with
  | nil => rfl
  | cons c cs ih =>
    have hc := b58_encodeChunk c
    rw [Nat.mod_eq_of_lt (h c (by simp)), b58] at hc
    rw [List.reverse_cons, List.flatMap_append, stringValue_append, ih fun x hx => h x (by simp [hx])]
    simp only [List.flatMap_cons, List.flatMap_nil, List.append_nil, encodeChunk_length, chunksValue, hc]
    rw [Nat.mul_comm, Nat.add_comm]

theorem chunks_lt (cs : List Word) : ∀ d ∈ cs.flatMap encodeChunk, d.toNat < 58 := by
  intro d hd
  obtain ⟨c, -, hc⟩ := List.mem_flatMap.1 hd
  exact encodeChunk_lt c d hc

/-- The digits of the chunks of a value are its base-58 digits, with no leading zero. -/
theorem digitsOfChunks_spec {cs : List Word} (h : ∀ c ∈ cs, c.toNat < 58 ^ 10) :
    b58 (digitsOfChunks cs) = chunksValue cs ∧ (∀ d ∈ digitsOfChunks cs, d.toNat < 58) ∧
      (digitsOfChunks cs = [] ∨ (digitsOfChunks cs).getD 0 0#8 ≠ 0#8) := by
  rw [digitsOfChunks, dropWhile_zero]
  refine ⟨?_, fun d hd => chunks_lt _ d (List.mem_of_mem_drop hd), drop_leadingZeros_head _⟩
  rw [b58, stringValue_drop_leadingZeros, stringValue_chunks cs h]

/-! ## The accumulation loop of DEC58 (R175, R176) -/

/-- A limb file whose top limb is 0 holds a value below 2^(64 * (n - 1)), and conversely. -/
theorem top_zero_iff {w : List Word} {n : Nat} (h1 : 1 ≤ n) (hn : n ≤ w.length) :
    w.getD (n - 1) 0#64 = 0#64 ↔ val (w.take n) < 2 ^ (64 * (n - 1)) := by
  have hv := val_take_top h1 hn
  have hlt := val_lt (w.take (n - 1))
  rw [List.length_take, Nat.min_eq_left (by omega)] at hlt
  rw [word_eq_zero_iff, hv]
  constructor
  · intro h
    rw [h]
    omega
  · intro h
    by_contra hc
    have : 2 ^ (64 * (n - 1)) * 1 ≤ 2 ^ (64 * (n - 1)) * (w.getD (n - 1) 0#64).toNat :=
      Nat.mul_le_mul_left _ (Nat.pos_of_ne_zero hc)
    omega

/-- Everything the loop can do on legal digits: halt on a multiplication, exactly when the value of all the digits but
the last reaches 2^(64 * (n - 1)), or end with the value of the string. -/
theorem accumulate_cases {n : Nat} (h2 : 2 ≤ n) (ds : List Byte) (hd : ∀ d ∈ ds, d.toNat < 58) (w : List Word)
    (hn : n ≤ w.length) :
    (ds ≠ [] ∧ 2 ^ (64 * (n - 1)) ≤ val (w.take n) * 58 ^ (ds.length - 1) + b58 ds.dropLast ∧
      accumulate n ds w = .error .mulTop) ∨
    ((ds = [] ∨ val (w.take n) * 58 ^ (ds.length - 1) + b58 ds.dropLast < 2 ^ (64 * (n - 1))) ∧
      ∃ w', accumulate n ds w = .ok w' ∧ w'.length = w.length ∧ w'.drop n = w.drop n ∧
        val (w'.take n) = val (w.take n) * 58 ^ ds.length + b58 ds) := by
  induction ds generalizing w with
  | nil => exact .inr ⟨.inl rfl, w, rfl, rfl, rfl, by simp [b58]⟩
  | cons d ds ih =>
    have hb : Config.base.toNat = 58 := rfl
    rw [accumulate]
    obtain ⟨htop, he⟩ | ⟨htop, w1, he, hl1, hdr1, hv1⟩ := inplaceMul_cases Config.base (by omega) hn
    · rw [he]
      refine .inl ⟨by simp, ?_, rfl⟩
      have := mt (top_zero_iff (by omega) hn).2 htop
      have hle : val (w.take n) ≤ val (w.take n) * 58 ^ ((d :: ds).length - 1) := Nat.le_mul_of_pos_right _ (by positivity)
      omega
    · rw [he]
      dsimp only
      have hlow := (top_zero_iff (by omega) hn).1 htop
      have hdd := hd d (by simp)
      have hz : (d.setWidth 64).toNat = d.toNat := by
        rw [BitVec.toNat_setWidth]
        exact Nat.mod_eq_of_lt (by omega)
      have hpow : (2 : Nat) ^ (64 * n) = 2 ^ 64 * 2 ^ (64 * (n - 1)) := by
        rw [← pow_limb_succ, Nat.sub_add_cancel (by omega)]
      obtain ⟨hov, -⟩ | ⟨w2, he2, hl2, hdr2, -, hv2⟩ := inplaceAdd_cases (w := w1) (d.setWidth 64) h2 (by omega)
      · rw [hv1, hb, hz, hpow] at hov
        generalize 2 ^ (64 * (n - 1)) = P at *
        omega
      · rw [he2]
        dsimp only
        rw [hv1, hb, hz] at hv2
        cases ds with
        | nil =>
          refine .inr ⟨.inr ?_, w2, rfl, by omega, by rw [hdr2, hdr1], ?_⟩
          · simpa [b58] using hlow
          · simpa [b58, stringValue_cons] using hv2
        | cons e es =>
          have hprev : val (w2.take n) * 58 ^ ((e :: es).length - 1) + b58 (e :: es).dropLast =
              val (w.take n) * 58 ^ ((d :: e :: es).length - 1) + b58 (d :: e :: es).dropLast := by
            rw [hv2, List.dropLast_cons_cons, b58, b58, stringValue_cons, List.length_dropLast]
            simp only [List.length_cons, Nat.add_sub_cancel]
            rw [Nat.pow_succ, Nat.add_mul, Nat.mul_assoc, Nat.mul_comm 58, Nat.add_assoc]
          obtain ⟨-, hbig, herr⟩ | ⟨hsmall, w3, he3, hl3, hdr3, hv3⟩ :=
            ih (fun x hx => hd x (by simp [hx])) w2 (by omega)
          · exact .inl ⟨by simp, hprev ▸ hbig, herr⟩
          · refine .inr ⟨.inr ?_, w3, he3, by omega, by rw [hdr3, hdr2, hdr1], ?_⟩
            · obtain hs | hs := hsmall
              · exact absurd hs (by simp)
              · exact hprev ▸ hs
            · rw [hv3, hv2, b58, b58, stringValue_cons 58 d, List.length_cons (a := d), Nat.pow_succ, Nat.add_mul,
                Nat.mul_assoc, Nat.mul_comm 58, Nat.add_assoc]

end Sys2Proof.Machine
end

