-- ==== Sys2Proof/Laws/PerInstr.lean ====
section
/-! SUPPORT. The statements made per command: the family `Encoding` (30_encoding.md R70 to R72). -/

namespace Sys2Proof.Laws.Encoding

/-- The command is well formed, its word has the zero field and its opcode where format C puts them, the word reads back
as the command, and so do the 64 bits of an opcode-table row. -/
def Statement (i : Instr) : Prop :=
  i.wf = true ∧ zeroField (encode i) = 0#56 ∧ opcodeField (encode i) = i.opcode ∧ decode (encode i) = .ok i ∧
    decodeTableWord 64 (encode i).toNat = some i

theorem cadd : Statement .cadd := ⟨rfl, rfl, rfl, rfl, rfl⟩

theorem cmul : Statement .cmul := ⟨rfl, rfl, rfl, rfl, rfl⟩

theorem divr : Statement .divr := ⟨rfl, rfl, rfl, rfl, rfl⟩

theorem bclr : Statement .bclr := ⟨rfl, rfl, rfl, rfl, rfl⟩

theorem badd : Statement .badd := ⟨rfl, rfl, rfl, rfl, rfl⟩

theorem bmul : Statement .bmul := ⟨rfl, rfl, rfl, rfl, rfl⟩

theorem bdiv : Statement .bdiv := ⟨rfl, rfl, rfl, rfl, rfl⟩

theorem chunk : Statement .chunk := ⟨rfl, rfl, rfl, rfl, rfl⟩

theorem ldbe : Statement .ldbe := ⟨rfl, rfl, rfl, rfl, rfl⟩

theorem stbe : Statement .stbe := ⟨rfl, rfl, rfl, rfl, rfl⟩

theorem enc58 : Statement .enc58 := ⟨rfl, rfl, rfl, rfl, rfl⟩

theorem dec58 : Statement .dec58 := ⟨rfl, rfl, rfl, rfl, rfl⟩

end Sys2Proof.Laws.Encoding
end

