-- ==== Sys2Proof/Laws/Port.lean ====
section
/-! SUPPORT. What a step does, one action at a time (20_memory.md R51 to R53, R63; 30_encoding.md R78), and everything
each command can do to the state (30_encoding.md R72), up to the values it computes. -/

namespace Sys2Proof.Machine

/-! ## The step -/

theorem step_nil {s : State} (h : s.script = []) : step s = .next s := by
  rw [step, nextAction, h]

theorem step_cons {s : State} {a : HostAction} {rest : List HostAction} (h : s.script = a :: rest) :
    step s = perform a s.advance := by
  rw [step, nextAction, h]

theorem State.advance_eq {s : State} {a : HostAction} {rest : List HostAction} (h : s.script = a :: rest) :
    s.advance = { s with script := rest, pos := s.pos + 1 } := by
  rw [State.advance, h, List.tail_cons]

@[simp] theorem State.advance_fatal (s : State) : s.advance.fatal = s.fatal := rfl
@[simp] theorem State.advance_regAt (s : State) (n : BitVec 16) : s.advance.regAt n = s.regAt n := rfl
@[simp] theorem State.advance_regValue (s : State) (r : Reg) : s.advance.regValue r = s.regValue r := by cases r <;> rfl
@[simp] theorem State.advance_mem (s : State) (b : Buffer) : s.advance.mem b = s.mem b := by cases b <;> rfl
@[simp] theorem State.advance_cell (s : State) (b : Buffer) (i : Nat) : s.advance.cell b i = s.cell b i :=
  State.cell_congr (s.advance_mem b) rfl i
@[simp] theorem State.advance_capacity (s : State) (b : Buffer) : s.advance.capacity b = s.capacity b := by
  cases b <;> rfl

/-- Number 0 is `CMD`, and no other number is. -/
theorem State.regAt_cmd (s : State) : s.regAt 0#16 = .cmd := rfl

theorem State.regAt_eq_cmd {s : State} {n : BitVec 16} (h : s.regAt n = .cmd) : n = 0#16 := by
  rw [State.regAt, regOfNumber] at h
  split at h
  · exact BitVec.eq_of_toNat_eq ‹_›
  all_goals first
    | exact absurd h (by simp)
    | split at h <;> exact absurd h (by simp)

/-! ## Issuing a command -/

theorem perform_issue (v : Word) (s : State) : perform (.writeReg 0#16 v) s = issue v s := rfl

theorem issue_halted {v : Word} {s : State} (h : s.fatal = true) : issue v s = .next s := by
  rw [issue, if_pos h]

theorem issue_illegal {v : Word} {s : State} {e : DecodeError} (h : s.fatal = false) (he : decode v = .error e) :
    issue v s = .next (s.setErr .unknown) := by
  rw [issue, if_neg (by simp [h]), he]
  rfl

theorem issue_legal {v : Word} {s : State} {i : Instr} (h : s.fatal = false) (hi : decode v = .ok i) :
    issue v s = exec i s := by
  rw [issue, if_neg (by simp [h]), hi]

theorem writeRegister_data {n : BitVec 16} (v : Word) (s : State) (h : s.regAt n ≠ .cmd) :
    writeRegister n v s = .next (if s.fatal then s else s.setReg (s.regAt n) v) := by
  rw [writeRegister]
  split
  · exact absurd ‹_› h
  · split <;> rfl

/-! ## What each command can do -/

/-- Fatal entry forgets everything but the parameters, the counter and the host's side (R203). -/
theorem State.raiseFatal_congr {s t : State} (c : FatalCause) (hp : t.params = s.params) (hd : t.draw = s.draw)
    (hs : t.script = s.script) (hpos : t.pos = s.pos) (hr : t.reads = s.reads) : t.raiseFatal c = s.raiseFatal c := by
  simp only [State.raiseFatal, hp, hd, hs, hpos, hr]

/-- The twelve commands, up to the values they compute: what the next state is made of. -/
inductive Ends (s : State) : Instr → State → Prop where
  | scalar (i : Instr) (p : Word × Word) (h : i ∈ [Instr.cadd, .cmul, .divr]) : Ends s i ((s.setResults p).setErr .ok)
  | limbs (i : Instr) (w : List Word) (h : i ∈ [Instr.bclr, .badd, .bmul])
      (hl : s.w.length = s.params.nlimb → w.length = s.params.nlimb) :
      Ends s i (({ s with w := w } : State).setErr .ok)
  | divided (w : List Word) (r : Word) (hl : s.w.length = s.params.nlimb → w.length = s.params.nlimb) :
      Ends s .bdiv (({ s with w := w, r1 := r } : State).setErr .ok)
  | loaded (k : Nat) (w : List Word) (hl : w.length = s.params.nlimb) : Ends s .ldbe ((s.setNumber k w).setErr .ok)
  | fails (i : Instr) (e : ErrCode) (h : (i, e) ∈ [(Instr.ldbe, ErrCode.inputTooLarge), (.enc58, .inputTooLarge),
      (.dec58, .inputTooLarge), (.dec58, .badChar)]) : Ends s i (s.setErr e)
  | fills (i : Instr) (b : Buffer) (zeros : Nat) (body : List Byte) (h : (i, b) ∈ [(Instr.chunk, Buffer.dig), (.stbe, .buf)]) :
      Ends s i (s.deliver b zeros body)
  | converts (i : Instr) (b : Buffer) (k : Nat) (w : List Word) (zeros : Nat) (body : List Byte)
      (h : (i, b) ∈ [(Instr.enc58, Buffer.dig), (.dec58, .buf)]) (hl : w.length = s.params.nlimb) :
      Ends s i ((s.setNumber k w).deliver b zeros body)
  | halts (i : Instr) (c : FatalCause) : Ends s i (s.raiseFatal c)

/-- A procedure that answers a limb file keeps its length. -/
theorem inplaceAdd_length {w w' : List Word} {n : Nat} {s : Word} (hn : n ≤ w.length) (h : inplaceAdd w n s = .ok w') :
    w'.length = w.length := by
  by_cases h2 : n < 2
  · rw [inplaceAdd_short s h2] at h
    simp at h
  · obtain ⟨-, he⟩ | ⟨v, he, hl, -⟩ := inplaceAdd_cases s (by omega : 2 ≤ n) hn
    · rw [he] at h
      simp at h
    · rw [he] at h
      simp only [Except.ok.injEq] at h
      rw [← h, hl]

theorem inplaceMul_length {w w' : List Word} {n : Nat} {s : Word} (hn : n ≤ w.length) (h : inplaceMul w n s = .ok w') :
    w'.length = w.length := by
  cases n with
  | zero =>
    rw [inplaceMul_empty] at h
    simp at h
  | succ n =>
    obtain ⟨-, he⟩ | ⟨-, v, he, hl, -⟩ := inplaceMul_cases s (by omega : 1 ≤ n + 1) hn
    · rw [he] at h
      simp at h
    · rw [he] at h
      simp only [Except.ok.injEq] at h
      rw [← h, hl]

theorem divRemScalar_length {w : List Word} {p : List Word × Word} {n : Nat} {d : Word} (hn : n ≤ w.length)
    (h : divRemScalar w n d = .ok p) : p.1.length = w.length := by
  cases n with
  | zero =>
    rw [divRemScalar_empty] at h
    simp at h
  | succ n =>
    obtain ⟨-, he⟩ | ⟨-, v, r, he, hl, -⟩ := divRemScalar_cases d (by omega : 1 ≤ n + 1) hn
    · rw [he] at h
      simp at h
    · rw [he] at h
      simp only [Except.ok.injEq] at h
      rw [← h, hl]

theorem accumulate_length {n : Nat} (ds : List Byte) {w w' : List Word} (hn : n ≤ w.length)
    (h : accumulate n ds w = .ok w') : w'.length = w.length := by
  induction ds generalizing w with
  | nil =>
    simp only [accumulate, Except.ok.injEq] at h
    rw [h]
  | cons d ds ih =>
    rw [accumulate] at h
    split at h
    · simp at h
    · rename_i w1 h1
      have hl1 := inplaceMul_length hn h1
      split at h
      · simp at h
      · rename_i w2 h2
        have hl2 := inplaceAdd_length (by omega) h2
        rw [ih (by omega) h, hl2, hl1]

/-- Every command ends in one of the ways of `Ends`. -/
theorem exec_ends {i : Instr} {s t : State} (h : exec i s = .next t) : Ends s i t := by
  have hrange : ∀ u : State, u.lenOutOfRange = false → u.len.toNat ≤ u.params.nlimb := by
    intro u hu
    simpa [State.lenOutOfRange] using hu
  cases i <;> simp only [exec] at h
  · obtain rfl : _ = t := by simpa [execCadd] using h
    exact .scalar _ _ (by simp)
  · obtain rfl : _ = t := by simpa [execCmul] using h
    exact .scalar _ _ (by simp)
  · rw [execDivr] at h
    split at h <;> obtain rfl : _ = t := by simpa using h
    · exact .halts _ _
    · exact .scalar _ _ (by simp)
  · obtain rfl : _ = t := by simpa [execBclr] using h
    exact .limbs _ _ (by simp) (by simp)
  · rw [execBadd] at h
    split at h
    · obtain rfl : _ = t := by simpa using h
      exact .halts _ _
    · rename_i hl
      split at h <;> obtain rfl : _ = t := by simpa using h
      · exact .halts _ _
      · rename_i w hw
        refine .limbs _ _ (by simp) fun hlen => ?_
        rw [inplaceAdd_length (by rw [hlen]; exact hrange s (by simpa using hl)) hw, hlen]
  · rw [execBmul] at h
    split at h
    · obtain rfl : _ = t := by simpa using h
      exact .halts _ _
    · rename_i hl
      split at h <;> obtain rfl : _ = t := by simpa using h
      · exact .halts _ _
      · rename_i w hw
        refine .limbs _ _ (by simp) fun hlen => ?_
        rw [inplaceMul_length (by rw [hlen]; exact hrange s (by simpa using hl)) hw, hlen]
  · rw [execBdiv] at h
    split at h
    · obtain rfl : _ = t := by simpa using h
      exact .halts _ _
    · rename_i hl
      split at h <;> obtain rfl : _ = t := by simpa using h
      · exact .halts _ _
      · rename_i w hw
        refine .divided _ _ fun hlen => ?_
        rw [divRemScalar_length (by rw [hlen]; exact hrange s (by simpa using hl)) hw, hlen]
  · obtain rfl : _ = t := by simpa [execChunk] using h
    exact .fills _ _ _ _ (by simp)
  · rw [execLdbe] at h
    obtain ⟨-, he⟩ | ⟨-, -, w, he, hl, -⟩ := s.loadBe_cases
    · rw [he] at h
      obtain rfl : _ = t := by simpa using h
      exact .fails _ _ (by simp)
    · rw [he] at h
      obtain rfl : _ = t := by simpa using h
      exact .loaded _ _ hl
  · obtain rfl : _ = t := by simpa [execStbe] using h
    by_cases hl : s.len.toNat > s.params.nlimb
    · rw [State.storeBe_of_gt hl]
      exact .halts _ _
    · rw [State.storeBe_of_le (by omega)]
      exact .fills _ _ _ _ (by simp)
  · rw [execEnc58] at h
    obtain ⟨-, he⟩ | ⟨-, -, w, he, hl, -⟩ := s.loadBe_cases
    · rw [he] at h
      obtain rfl : _ = t := by simpa using h
      exact .fails _ _ (by simp)
    · rw [he] at h
      dsimp only at h
      obtain ⟨cs, w', hd, hl', -⟩ := divideOut_spec (n := s.params.nlimb) _ w (by omega) (divideOut_fuel (by omega))
      rw [State.setNumber_params, State.setNumber_w, hd] at h
      obtain rfl : _ = t := by simpa using h
      exact .converts _ _ _ w' _ _ (by simp) (by omega)
  · rw [execDec58] at h
    split at h
    · obtain rfl : _ = t := by simpa using h
      exact .fails _ _ (by simp)
    · dsimp only at h
      split at h
      · split at h <;> obtain rfl : _ = t := by simpa using h
        · exact .halts _ _
        · rename_i w hw
          rw [State.storeBe_of_le]
          · refine .converts _ _ _ w _ _ (by simp) ?_
            rw [accumulate_length _ (by simp) hw]
            simp
          · rw [State.setNumber_len, State.setNumber_params, BitVec.toNat_ofNat]
            exact Nat.mod_le _ _
      · obtain rfl : _ = t := by simpa using h
        exact .fails _ _ (by simp)

/-- No command touches the parameters or the host's side. -/
theorem Ends.host {i : Instr} {s t : State} (h : Ends s i t) :
    t.params = s.params ∧ t.script = s.script ∧ t.pos = s.pos ∧ t.reads = s.reads := by
  cases h <;> simp

@[simp] theorem State.setReg_params (s : State) (r : Reg) (v : Word) : (s.setReg r v).params = s.params := by
  cases r <;> rfl
@[simp] theorem State.setReg_script (s : State) (r : Reg) (v : Word) : (s.setReg r v).script = s.script := by
  cases r <;> rfl
@[simp] theorem State.setReg_pos (s : State) (r : Reg) (v : Word) : (s.setReg r v).pos = s.pos := by
  cases r <;> rfl
@[simp] theorem State.setReg_reads (s : State) (r : Reg) (v : Word) : (s.setReg r v).reads = s.reads := by
  cases r <;> rfl
@[simp] theorem State.setReg_status (s : State) (r : Reg) (v : Word) : (s.setReg r v).status = s.status := by
  cases r <;> rfl
@[simp] theorem State.setReg_mem (s : State) (r : Reg) (v : Word) (b : Buffer) : (s.setReg r v).mem b = s.mem b := by
  cases r <;> cases b <;> rfl

@[simp] theorem State.setReg_epoch (s : State) (r : Reg) (v : Word) : (s.setReg r v).epoch = s.epoch := by
  cases r <;> rfl
@[simp] theorem State.setReg_draw (s : State) (r : Reg) (v : Word) : (s.setReg r v).draw = s.draw := by
  cases r <;> rfl
@[simp] theorem State.setReg_w_length (s : State) (r : Reg) (v : Word) : (s.setReg r v).w.length = s.w.length := by
  cases r <;> simp [State.setReg]

/-! ## The register map (10_state.md R32) -/

/-- Above `PDCAP` there are only limbs and reserved numbers. -/
theorem regOfNumber_high {nl : Nat} {n : BitVec 16} (hn : 0x0F ≤ n.toNat) :
    regOfNumber nl n = if 0x100 ≤ n.toNat ∧ n.toNat < 0x100 + nl then .w (n.toNat - 0x100) else .reserved := by
  rw [regOfNumber]
  generalize n.toNat = k at *
  split
  case h_16 => rfl
  all_goals exfalso; omega

theorem regOfNumber_limb {nl i : Nat} {n : BitVec 16} (hi : i < nl) (hn : n.toNat = 0x100 + i) :
    regOfNumber nl n = .w i := by
  rw [regOfNumber_high (by omega), if_pos (by omega), hn, Nat.add_sub_cancel_left]

theorem regOfNumber_reserved {nl : Nat} {n : BitVec 16}
    (hn : 0x0F ≤ n.toNat ∧ n.toNat ≤ 0xFF ∨ 0x100 + nl ≤ n.toNat) : regOfNumber nl n = .reserved := by
  rw [regOfNumber_high (by omega), if_neg (by omega)]

/-- The registers that a fatal halt leaves unspecified, by number. -/
theorem regOfNumber_unspecified {nl : Nat} {n : BitVec 16}
    (h : 0x02 ≤ n.toNat ∧ n.toNat ≤ 0x0B ∨ 0x100 ≤ n.toNat ∧ n.toNat < 0x100 + nl) :
    (regOfNumber nl n).unspecifiedWhileHalted = true := by
  rcases h with ⟨h1, h2⟩ | h
  · rw [regOfNumber]
    generalize n.toNat = k at *
    interval_cases k <;> rfl
  · rw [regOfNumber_high (by omega), if_pos h]
    rfl

/-! ## The two conversions, everything they can do -/

/-- The number of a whole-buffer command, as the statements write it. -/
theorem State.withNumber_eq_setNumber (s : State) (w : List Word) (k : Nat) : s.withNumber w k = s.setNumber k w := rfl

theorem ofNat_leadingZeros (s : State) (b : Buffer) (n : Word) :
    (BitVec.ofNat 64 (leadingZeros (s.cells b n.toNat))).toNat = leadingZeros (s.cells b n.toNat) := by
  have := leadingZeros_le (s.cells b n.toNat)
  have hn := n.isLt
  rw [State.cells_length] at this
  rw [BitVec.toNat_ofNat]
  exact Nat.mod_eq_of_lt (by omega)

/-- ENC58 (R170, R171). -/
theorem execEnc58_cases (s : State) :
    ((s.blen.toNat > s.params.bcap ∨
        s.blen.toNat - leadingZeros (s.cells .buf s.blen.toNat) > 8 * s.params.nlimb) ∧
      execEnc58 s = .next (s.setErr .inputTooLarge)) ∨
    (s.blen.toNat ≤ s.params.bcap ∧
      s.blen.toNat - leadingZeros (s.cells .buf s.blen.toNat) ≤ 8 * s.params.nlimb ∧
      ∃ ds, b58 ds = be (s.cells .buf s.blen.toNat) ∧ (∀ d ∈ ds, d.toNat < 58) ∧ (ds = [] ∨ ds.getD 0 0#8 ≠ 0#8) ∧
        execEnc58 s = .next ((s.setNumber (leadingZeros (s.cells .buf s.blen.toNat))
          (List.replicate s.params.nlimb 0#64)).deliver .dig (leadingZeros (s.cells .buf s.blen.toNat)) ds)) := by
  obtain ⟨h, he⟩ | ⟨h1, h2, w, he, hl, hv, -⟩ := s.loadBe_cases
  · exact .inl ⟨h, by simp [execEnc58, he]⟩
  · refine .inr ⟨h1, h2, ?_⟩
    obtain ⟨cs, w', hd, hl', -, hz, hlt, hval, -⟩ :=
      divideOut_spec (n := s.params.nlimb) _ w (by omega) (divideOut_fuel (by omega))
    rw [List.take_of_length_le (by omega)] at hz hval
    obtain ⟨hb, hd58, hh⟩ := digitsOfChunks_spec hlt
    refine ⟨digitsOfChunks cs, by rw [hb, hval, hv], hd58, hh, ?_⟩
    simp only [execEnc58, he, State.setNumber_params, State.setNumber_w, hd]
    rw [State.setNumber_zcnt, ofNat_leadingZeros, eq_replicate_of_val_eq_zero hz, hl', hl]
    rfl

/-- DEC58 (R175, R176). -/
theorem execDec58_cases {s : State} (hp : s.params.wf = true) :
    (s.dlen.toNat > s.params.dcap ∧ execDec58 s = .next (s.setErr .inputTooLarge)) ∨
    (s.dlen.toNat ≤ s.params.dcap ∧ (∃ d ∈ s.cells .dig s.dlen.toNat, 58 ≤ d.toNat) ∧
      execDec58 s = .next (s.setErr .badChar)) ∨
    (s.dlen.toNat ≤ s.params.dcap ∧ (∀ d ∈ s.cells .dig s.dlen.toNat, d.toNat < 58) ∧
      ((s.cells .dig s.dlen.toNat).drop (leadingZeros (s.cells .dig s.dlen.toNat)) ≠ [] ∧
        2 ^ (64 * (s.params.nlimb - 1)) ≤
          b58 ((s.cells .dig s.dlen.toNat).drop (leadingZeros (s.cells .dig s.dlen.toNat))).dropLast) ∧
      execDec58 s = .next (s.raiseFatal .mulTop)) ∨
    (s.dlen.toNat ≤ s.params.dcap ∧ (∀ d ∈ s.cells .dig s.dlen.toNat, d.toNat < 58) ∧
      ((s.cells .dig s.dlen.toNat).drop (leadingZeros (s.cells .dig s.dlen.toNat)) = [] ∨
        b58 ((s.cells .dig s.dlen.toNat).drop (leadingZeros (s.cells .dig s.dlen.toNat))).dropLast <
          2 ^ (64 * (s.params.nlimb - 1))) ∧
      ∃ w, w.length = s.params.nlimb ∧ val w = b58 (s.cells .dig s.dlen.toNat) ∧
        execDec58 s = .next ((s.setNumber (leadingZeros (s.cells .dig s.dlen.toNat)) w).deliver .buf
          (leadingZeros (s.cells .dig s.dlen.toNat)) (shortestBytes w))) := by
  obtain ⟨h2, hmax⟩ : 2 ≤ s.params.nlimb ∧ s.params.nlimb ≤ 65280 := by
    simp only [Params.wf, Bool.and_eq_true, decide_eq_true_eq] at hp
    exact hp.1.1
  by_cases hlen : s.dlen.toNat > s.params.dcap
  · exact .inl ⟨hlen, by simp [execDec58, hlen]⟩
  have hk := ofNat_leadingZeros s .dig s.dlen
  refine .inr ?_
  generalize hds : s.cells .dig s.dlen.toNat = ds at *
  by_cases hall : ds.all legalDigit = true
  · have hlt : ∀ d ∈ ds, d.toNat < 58 := by simpa [legalDigit] using hall
    have hex : execDec58 s =
        match accumulate s.params.nlimb (ds.drop (leadingZeros ds)) (List.replicate s.params.nlimb 0#64) with
        | .error c => .next (s.raiseFatal c)
        | .ok w => .next (s.setNumber (leadingZeros ds) w).storeBe := by
      rw [execDec58, if_neg hlen, hds]
      exact if_pos hall
    refine .inr ?_
    obtain ⟨hne, hbig, he⟩ | ⟨hsm, w, he, hl, -, hv⟩ := accumulate_cases h2 (ds.drop (leadingZeros ds))
      (fun d hd => hlt d (List.mem_of_mem_drop hd)) (List.replicate s.params.nlimb 0#64) (by simp)
    · simp only [List.take_replicate, val_replicate_zero, Nat.zero_mul, Nat.zero_add] at hbig
      exact .inl ⟨by omega, hlt, ⟨hne, hbig⟩, by rw [hex, he]⟩
    · simp only [List.take_replicate, val_replicate_zero, Nat.zero_mul, Nat.zero_add] at hsm hv
      rw [List.length_replicate] at hl
      rw [List.take_of_length_le (by omega), b58, stringValue_drop_leadingZeros] at hv
      refine .inr ⟨by omega, hlt, hsm, w, hl, hv, ?_⟩
      have hnl : (BitVec.ofNat 64 s.params.nlimb).toNat = s.params.nlimb := by
        rw [BitVec.toNat_ofNat]
        exact Nat.mod_eq_of_lt (by omega)
      rw [hex, he]
      dsimp only
      rw [State.storeBe_of_le (by simp [Nat.mod_le])]
      simp only [State.setNumber_zcnt, hk, State.active, State.setNumber_w, State.setNumber_len, hnl]
      rw [List.take_of_length_le (by omega)]
  · refine .inl ⟨by omega, by simpa [legalDigit] using hall, ?_⟩
    simp only [execDec58, if_neg hlen, hds, if_neg hall]
    rfl

end Sys2Proof.Machine
end

