-- ==== Sys2Proof/Machine/Script.lean ====
section
/-! DEFINITION. The host-script lines of this spec (30_encoding.md R75), its pseudo-instructions (R76) and the tuple that
encodes a line (R77), as host actions. -/

namespace Sys2Proof.Machine

/-- The number of a register (10_state.md R32); `W[i]` names 0x0100 + i also when the instance has no such limb. The
reserved numbers have no name: the line `#<n>` gives the number itself, and 0x0F stands for them here (DESIGN CHOICE,
log 13). -/
def Reg.number : Reg → Nat
  | .cmd => 0x00
  | .status => 0x01
  | .opa => 0x02
  | .opb => 0x03
  | .opc => 0x04
  | .r0 => 0x05
  | .r1 => 0x06
  | .len => 0x07
  | .blen => 0x08
  | .dlen => 0x09
  | .zcnt => 0x0A
  | .ocap => 0x0B
  | .pnlimb => 0x0C
  | .pbcap => 0x0D
  | .pdcap => 0x0E
  | .w i => 0x100 + i
  | .reserved => 0x0F

namespace Script

/-- `wr <reg>, <v>`. DESIGN CHOICE (log 13): R75 gives `W[i]` no meaning where 0x0100 + i needs more than 16 bits; the
number is then taken mod 2^16, here, in `rd` and in `limbs`. -/
def wr (r : Reg) (v : Word) : HostAction := .writeReg (BitVec.ofNat 16 r.number) v

/-- `rd <reg>`; for a limb number above 16 bits as `wr` (log 13). -/
def rd (r : Reg) : HostAction := .readReg (BitVec.ofNat 16 r.number)

/-- `<mnemonic>`: the write of the command word to `CMD`. -/
def cmd (i : Instr) : HostAction := .writeReg 0#16 (encode i)

/-- `cadd <a>, <b>`. -/
def cadd (a b : Word) : List HostAction := [wr .opa a, wr .opb b, cmd .cadd]

/-- `cmul <a>, <b>, <c>`. -/
def cmul (a b c : Word) : List HostAction := [wr .opa a, wr .opb b, wr .opc c, cmd .cmul]

/-- `divr <a>, <b>`. -/
def divr (a b : Word) : List HostAction := [wr .opa a, wr .opb b, cmd .divr]

/-- `badd <s>`. -/
def badd (v : Word) : List HostAction := [wr .opa v, cmd .badd]

/-- `bmul <s>`. -/
def bmul (v : Word) : List HostAction := [wr .opa v, cmd .bmul]

/-- `bdiv <d>`. -/
def bdiv (v : Word) : List HostAction := [wr .opa v, cmd .bdiv]

/-- `chunk <v>`. -/
def chunk (v : Word) : List HostAction := [wr .opa v, cmd .chunk]

/-- `bytes <b0> ... <b(m-1)>`; for more than 2^32 bytes the index is taken mod 2^32 (DESIGN CHOICE, log 13). -/
def bytes (bs : List Byte) : List HostAction :=
  bs.mapIdx (fun i v => .writeBuf (BitVec.ofNat 32 i) v) ++ [wr .blen (BitVec.ofNat 64 bs.length)]

/-- `digits <d0> ... <d(m-1)>`; for more than 2^32 digits the index is taken mod 2^32 (DESIGN CHOICE, log 13). -/
def digits (ds : List Byte) : List HostAction :=
  ds.mapIdx (fun i v => .writeDig (BitVec.ofNat 32 i) v) ++ [wr .dlen (BitVec.ofNat 64 ds.length)]

/-- `limbs <w0> ... <w(m-1)>`, the least significant limb first; for more than 65280 limbs as `wr` (log 13). -/
def limbs (ws : List Word) : List HostAction :=
  ws.mapIdx (fun i v => wr (.w i) v) ++ [wr .len (BitVec.ofNat 64 ws.length)]

end Script

/-- The space of a tuple of R77. -/
inductive Space where
  | reg
  | buf
  | dig
  deriving DecidableEq, Repr

/-- The encoding of a script line (R77): read or write, the space, the index, and the data of a write. -/
structure ActionTuple where
  write : Bool
  space : Space
  index : Nat
  data : Option Nat
  deriving DecidableEq, Repr

/-- The tuple of a host action; `Reset` has none (R77). -/
def HostAction.tuple : HostAction → Option ActionTuple
  | .readReg n => some { write := false, space := .reg, index := n.toNat, data := none }
  | .writeReg n v => some { write := true, space := .reg, index := n.toNat, data := some v.toNat }
  | .readBuf i => some { write := false, space := .buf, index := i.toNat, data := none }
  | .writeBuf i v => some { write := true, space := .buf, index := i.toNat, data := some v.toNat }
  | .readDig i => some { write := false, space := .dig, index := i.toNat, data := none }
  | .writeDig i v => some { write := true, space := .dig, index := i.toNat, data := some v.toNat }
  | .reset => none

end Sys2Proof.Machine
end

