-- ==== Sys2Proof/Tests/Slice0.lean ====
section
/-! SUPPORT. The model's own tests: well-formedness, the command words of 30_encoding.md R72 and R73 written out, at most
two one-step tests for each command with values from 95_test_vectors.md (the vector's name is given), and a witness for
the hypotheses of each statement. -/

namespace Sys2Proof.Tests

open Sys2Proof Sys2Proof.Machine

/-! ## Well-formedness (00_scope.md R5) -/

theorem test_wf_accepts : Params.wf ⟨2, 0, 0⟩ = true ∧ Params.wf ⟨65280, 2 ^ 32 - 1, 2 ^ 32 - 1⟩ = true := by decide

theorem test_wf_refuses_one_limb : Params.wf ⟨1, 24, 40⟩ = false := by decide

theorem test_wf_refuses_too_many_limbs : Params.wf ⟨65281, 24, 40⟩ = false := by decide

theorem test_wf_refuses_bcap : Params.wf ⟨4, 2 ^ 32, 40⟩ = false := by decide

theorem test_wf_refuses_dcap : Params.wf ⟨4, 24, 2 ^ 32⟩ = false := by decide

/-! ## Command words (R70, R72, R73), opcode in bits 7:0 -/

theorem test_decode_scalar :
    decode 0b00000001#64 = .ok .cadd ∧ decode 0b00000010#64 = .ok .cmul ∧ decode 0b00000011#64 = .ok .divr := by decide

theorem test_decode_bigint :
    decode 0b00010000#64 = .ok .bclr ∧ decode 0b00010001#64 = .ok .badd ∧ decode 0b00010010#64 = .ok .bmul ∧
      decode 0b00010011#64 = .ok .bdiv := by decide

theorem test_decode_converter :
    decode 0b00100000#64 = .ok .chunk ∧ decode 0b00100001#64 = .ok .ldbe ∧ decode 0b00100010#64 = .ok .stbe ∧
      decode 0b00100011#64 = .ok .enc58 ∧ decode 0b00100100#64 = .ok .dec58 := by decide

/-- 95_test_vectors.md 2.8. -/
theorem test_decode_rejects_opcodes :
    ∀ op ∈ [0x00#8, 0x04#8, 0x0F#8, 0x14#8, 0x1F#8, 0x25#8, 0xFF#8],
      decode (op.setWidth 64) = .error (.unknownOpcode op) := by decide

/-- 95_test_vectors.md 2.8. -/
theorem test_decode_rejects_upper_bits :
    decode 0x0000000000000101#64 = .error .upperBitsSet ∧ decode 0x0000000000000110#64 = .error .upperBitsSet ∧
      decode 0x8000000000000001#64 = .error .upperBitsSet := by decide

theorem test_table_word : decodeTableWord 64 0x24 = some .dec58 ∧ decodeTableWord 8 0x13 = some .bdiv ∧
    decodeTableWord 64 0x25 = none := by decide

/-! ## One step -/

/-- 2^64 - 1, `M` of 95_test_vectors.md. -/
def top : Word := 0xFFFFFFFFFFFFFFFF#64

/-- The next state of an outcome. -/
def after (o : Host.Outcome State Fault Refusal) : State :=
  match o with
  | .next t => t
  | .fault _ => State.reset
  | .refused _ => State.reset

/-- An instance with the scalar operands set. -/
def scalars (a b c : Word) : State := { State.reset with opa := a, opb := b, opc := c }

/-- An instance with four limbs, `LEN` and `OPA` set. -/
def limbs (w : List Word) (len opa : Word) : State := { State.reset with w := w, len := len, opa := opa }

/-- An instance with strings in its buffers, and their lengths. -/
def strings (p : Params) (bs ds : List Byte) (cap : Word) : State :=
  { State.resetAt p 0 with
    w := List.replicate p.nlimb 7#64
    buf := Memory.listed 0 bs
    blen := BitVec.ofNat 64 bs.length
    dig := Memory.listed 0 ds
    dlen := BitVec.ofNat 64 ds.length
    ocap := cap }

/-- The state with the next host actions. -/
def withScript (s : State) (as : List HostAction) : State := { s with script := as }

/-- CA6. -/
theorem test_cadd : (after (exec .cadd (scalars 0x123456789ABCDEF0#64 0xFEDCBA9876543210#64 0#64))).r0 = 0x1111111111111100#64 ∧
    (after (exec .cadd (scalars 0x123456789ABCDEF0#64 0xFEDCBA9876543210#64 0#64))).r1 = 1#64 := by decide

/-- CM9. -/
theorem test_cmul :
    (after (exec .cmul (scalars 0x123456789ABCDEF0#64 0xFEDCBA9876543210#64 0x0F0F0F0F0F0F0F0F#64))).r0 = 0x327C980D6527DE0F#64 ∧
    (after (exec .cmul (scalars 0x123456789ABCDEF0#64 0xFEDCBA9876543210#64 0x0F0F0F0F0F0F0F0F#64))).r1 = 0x121FA00AD77D7422#64 := by
  decide

/-- DV8. -/
theorem test_divr : (after (exec .divr (scalars top 0x05FA8624C7FBA400#64 0#64))).r0 = 0x2A#64 ∧
    (after (exec .divr (scalars top 0x05FA8624C7FBA400#64 0#64))).r1 = 0x04E5FDF730B717FF#64 := by decide

/-- DV11. -/
theorem test_divr_zero : (after (exec .divr (scalars 100#64 0#64 0#64))).status = 0x10600#64 := by decide

/-- B1. -/
theorem test_bclr : (after (exec .bclr (limbs [1#64, 2#64, 3#64, 4#64] 2#64 5#64))).w = [0#64, 0#64, 0#64, 0#64] ∧
    (after (exec .bclr (limbs [1#64, 2#64, 3#64, 4#64] 2#64 5#64))).len = 2#64 := by decide

/-- A1. -/
theorem test_badd : (after (exec .badd (limbs [top, top, 5#64, 9#64] 3#64 1#64))).w = [0#64, 0#64, 6#64, 9#64] := by decide

/-- A6. -/
theorem test_badd_carry : (after (exec .badd (limbs [top, top, top, 0#64] 2#64 1#64))).status = 0x10200#64 := by decide

/-- M1. -/
theorem test_bmul :
    (after (exec .bmul (limbs [top, top, 0#64, 7#64] 3#64 58#64))).w = [0xFFFFFFFFFFFFFFC6#64, top, 0x39#64, 7#64] := by decide

/-- M7. -/
theorem test_bmul_top : (after (exec .bmul (limbs [1#64, 0#64, 0#64, 1#64] 4#64 0#64))).status = 0x10400#64 := by decide

/-- V1. -/
theorem test_bdiv :
    (after (exec .bdiv (limbs [0#64, 1#64, 5#64, 5#64] 2#64 58#64))).w = [0x0469EE58469EE584#64, 0#64, 5#64, 5#64] ∧
    (after (exec .bdiv (limbs [0#64, 1#64, 5#64, 5#64] 2#64 58#64))).r1 = 24#64 := by decide

/-- V12. -/
theorem test_bdiv_empty : (after (exec .bdiv (limbs [1#64, 2#64, 3#64, 4#64] 0#64 0#64))).status = 0x10500#64 := by decide

/-- K10. -/
theorem test_chunk : (after (exec .chunk (scalars top 0#64 0#64))).cells .dig 10 =
    [47#8, 30#8, 11#8, 32#8, 37#8, 36#8, 15#8, 38#8, 28#8, 23#8] ∧ (after (exec .chunk (scalars top 0#64 0#64))).dlen = 10#64 := by
  decide

/-- K13. -/
theorem test_chunk_small :
    (after (exec .chunk { strings ⟨4, 24, 40⟩ [] (List.replicate 12 1#8) 9#64 with opa := 5#64 })).status = 7#64 ∧
    (after (exec .chunk { strings ⟨4, 24, 40⟩ [] (List.replicate 12 1#8) 9#64 with opa := 5#64 })).dlen = 0#64 ∧
    (after (exec .chunk { strings ⟨4, 24, 40⟩ [] (List.replicate 12 1#8) 9#64 with opa := 5#64 })).cell .dig 9 = 1#8 := by decide

/-- L5, L7. -/
theorem test_ldbe :
    (after (exec .ldbe (strings ⟨4, 40, 40⟩ [0#8, 0#8, 1#8, 2#8, 3#8] [] top))).w = [0x10203#64, 0#64, 0#64, 0#64] ∧
    (after (exec .ldbe (strings ⟨4, 40, 40⟩ [0#8, 0#8, 1#8, 2#8, 3#8] [] top))).zcnt = 2#64 ∧
    (after (exec .ldbe (strings ⟨4, 40, 40⟩
      [0x11#8, 0x22#8, 0x33#8, 0x44#8, 0x55#8, 0x66#8, 0x77#8, 0x88#8, 0x99#8, 0xAA#8, 0xBB#8] [] top))).w =
      [0x445566778899AABB#64, 0x0000000000112233#64, 0#64, 0#64] := by decide

/-- L10. -/
theorem test_ldbe_large : (after (exec .ldbe (strings ⟨4, 40, 40⟩ (List.replicate 33 1#8) [] top))).status = 1#64 ∧
    (after (exec .ldbe (strings ⟨4, 40, 40⟩ (List.replicate 33 1#8) [] top))).w = List.replicate 4 7#64 := by decide

/-- T1. -/
theorem test_stbe :
    (after (exec .stbe { limbs [0x0102030405060708#64, 0x0A0B#64, 0#64, 0#64] 2#64 0#64 with zcnt := 1#64 })).cells .buf 11 =
      [0x00#8, 0x0A#8, 0x0B#8, 0x01#8, 0x02#8, 0x03#8, 0x04#8, 0x05#8, 0x06#8, 0x07#8, 0x08#8] := by decide

/-- T9: the count of cells is exact, it does not wrap. -/
theorem test_stbe_no_wrap : (after (exec .stbe { limbs [1#64, 0#64, 0#64, 0#64] 4#64 0#64 with zcnt := top })).status = 7#64 := by
  decide

/-- E8. -/
theorem test_enc58 : (after (exec .enc58 (strings ⟨4, 24, 40⟩ [0#8, 0#8, 1#8, 2#8, 3#8] [] top))).cells .dig 5 =
    [0#8, 0#8, 19#8, 36#8, 47#8] ∧
    (after (exec .enc58 (strings ⟨4, 24, 40⟩ [0#8, 0#8, 1#8, 2#8, 3#8] [] top))).dlen = 5#64 := by decide

/-- E9. -/
theorem test_enc58_two_chunks :
    (after (exec .enc58 (strings ⟨4, 24, 40⟩ [1#8, 0#8, 0#8, 0#8, 0#8, 0#8, 0#8, 0#8, 0#8] [] top))).cells .dig 11 =
      [42#8, 47#8, 30#8, 11#8, 32#8, 37#8, 36#8, 15#8, 38#8, 28#8, 24#8] := by decide

/-- X8. -/
theorem test_dec58 : (after (exec .dec58 (strings ⟨4, 24, 40⟩ [] [0#8, 0#8, 19#8, 36#8, 47#8] top))).cells .buf 5 =
    [0#8, 0#8, 1#8, 2#8, 3#8] ∧ (after (exec .dec58 (strings ⟨4, 24, 40⟩ [] [0#8, 0#8, 19#8, 36#8, 47#8] top))).zcnt = 2#64 := by
  decide

/-- X26, X12. -/
theorem test_dec58_failures :
    (after (exec .dec58 (strings ⟨2, 24, 40⟩ []
      [42#8, 47#8, 30#8, 11#8, 32#8, 37#8, 36#8, 15#8, 38#8, 28#8, 24#8, 0#8] top))).status = 0x10400#64 ∧
    (after (exec .dec58 (strings ⟨4, 24, 40⟩ [] [0#8, 1#8, 255#8] top))).status = 3#64 := by decide

/-! ## The port -/

/-- The first command after reset: `withFetchWord` places it and the next step runs it. -/
theorem test_first_command : (after (step (State.reset.withFetchWord 64 0x10))).w = [0#64, 0#64, 0#64, 0#64] ∧
    (after (step (State.reset.withFetchWord 64 0x10))).pos = 1 := by decide

/-- P5 step 9. -/
theorem test_illegal_word : (after (step (withScript State.reset [.writeReg 0#16 0x99#64]))).status = 0xFF#64 := by decide

/-- P4 steps 9 and 18. -/
theorem test_halted :
    (after (step (withScript (State.reset.raiseFatal .mulTop) [.writeReg 2#16 7#64]))).status = 0x10400#64 ∧
    (after (step (withScript (State.reset.raiseFatal .mulTop) [.reset]))).status = 0#64 := by decide

/-- P4 steps 16 and 17, P5 step 20: a parameter and a reserved number while halted, a cell at BCAP. -/
theorem test_reads :
    (after (step (withScript (State.reset.raiseFatal .mulTop) [.readReg 0xC#16]))).reads = [.reg 4#64] ∧
    (after (step (withScript (State.reset.raiseFatal .mulTop) [.readReg 0xF#16]))).reads = [.reg 0#64] ∧
    (after (step (withScript State.reset [.readBuf 24#32]))).reads = [.cell 0#8] := by decide

/-- P5 steps 5, 7, 17, 21: writes that are ignored. -/
theorem test_ignored_writes :
    ∀ n ∈ [5#16, 1#16, 0x104#16, 0xC#16, 0xF#16],
      perform (.writeReg n 0x10000#64) (scalars 1#64 2#64 3#64) = .next (scalars 1#64 2#64 3#64) := by
  intro n hn
  fin_cases hn <;> rfl

/-- R77: the tuples of P1 steps 1 and 20. -/
theorem test_tuples :
    (Script.wr .len 4#64).tuple = some { write := true, space := .reg, index := 7, data := some 4 } ∧
    (HostAction.readBuf 0#32).tuple = some { write := false, space := .buf, index := 0, data := none } := by decide

/-! ## Witnesses: states and operands that meet the hypotheses of each statement

A statement with several clauses gets a witness for each, at a boundary value. -/

/-- A number of leading zeros, for concrete strings. -/
theorem count_of {cells : List Byte} {k : Nat} (h : k = leadingZeros cells) : LeadingZeroCount cells k :=
  leadingZeroCount_iff.2 h

/-- The length of a string with no leading zero, for concrete numbers. -/
theorem least_of {b v : Nat} (ds : List Byte) (hv : v = stringValue b ds) (hb : 2 ≤ b) (h : ∀ d ∈ ds, d.toNat < b)
    (hh : ds = [] ∨ ds.getD 0 0#8 ≠ 0#8) : LeastCount b v ds.length :=
  hv ▸ leastCount_of_head hb h hh

theorem withScript_fatal (s : State) (as : List HostAction) : (withScript s as).fatal = s.fatal := rfl

theorem witness_CommandWordsRoundTrip : decode 0x24#64 = .ok .dec58 := by decide

theorem witness_IllegalWordSetsErrUnknownOnly :
    ∃ (s : State) (v : Word) (rest : List HostAction), s.fatal = false ∧ s.script = .writeReg 0#16 v :: rest ∧
      ∃ e, decode v = .error e :=
  ⟨withScript State.reset [.writeReg 0#16 0x101#64], 0x101#64, [], by decide, rfl, .upperBitsSet, by decide⟩

theorem witness_StepRunsTheDecodedCommand :
    (∃ s : State, s.script = [.writeReg 0#16 1#64] ∧ s.fatal = true) ∧
    (∃ s : State, s.script = [.writeReg 0#16 0#64] ∧ s.fatal = false ∧ decode 0#64 = .error (.unknownOpcode 0#8)) ∧
    (∃ s : State, s.script = [.writeReg 0#16 1#64] ∧ s.fatal = false ∧ decode 1#64 = .ok .cadd) :=
  ⟨⟨withScript (State.reset.raiseFatal .mulTop) [.writeReg 0#16 1#64], rfl, by decide⟩,
    ⟨withScript State.reset [.writeReg 0#16 0#64], rfl, by decide, by decide⟩,
    ⟨withScript State.reset [.writeReg 0#16 1#64], rfl, by decide, by decide⟩⟩

theorem witness_FetchedWordRunsNext : State.reset.fatal = false := by decide

theorem witness_EveryActionAdvancesThePosition :
    (∃ s t : State, step s = .next t ∧ s.script = [.reset]) ∧ ∃ s t : State, step s = .next t ∧ s.script = [] :=
  ⟨⟨withScript State.reset [.reset], _, rfl, rfl⟩, ⟨State.reset, _, rfl, rfl⟩⟩

theorem witness_DivrWritesQuotientAndRemainder :
    (∃ s : State, s.opb = 0#64) ∧ ∃ s : State, s.opb ≠ 0#64 :=
  ⟨⟨scalars top 0#64 0#64, rfl⟩, ⟨scalars top 1#64 0#64, by decide⟩⟩

/-- The largest sum below 2^64, and the largest and smallest divisors. -/
theorem witness_ScalarPrimitivesObeyTheirLaws :
    top.toNat * (1#64 : Word).toNat + (0#64 : Word).toNat < 2 ^ 64 ∧ (1#64 : Word) ≠ 0#64 ∧ top ≠ 0#64 := by decide

theorem witness_LenAboveNlimbHaltsFirst :
    ∀ i ∈ [Instr.badd, .bmul, .bdiv, .stbe], i ∈ [Instr.badd, .bmul, .bdiv, .stbe] ∧
      (limbs [0#64, 0#64, 0#64, 0#64] 5#64 1#64).len.toNat > (limbs [0#64, 0#64, 0#64, 0#64] 5#64 1#64).params.nlimb := by
  decide

/-- The largest value that 1 can be added to, and the smallest that overflows, in two limbs (A3, A4). -/
theorem witness_InplaceAddAddsToTheValue :
    val ([0xFFFFFFFFFFFFFFFE#64, top].take 2) + (1#64 : Word).toNat < 2 ^ (64 * 2) ∧
      2 ^ (64 * 2) ≤ val ([top, top].take 2) + (1#64 : Word).toNat := by decide

theorem witness_BaddAddsOpaToTheActiveLimbs :
    (∃ s : State, s.w.length = s.params.nlimb ∧ s.len.toNat > s.params.nlimb) ∧
    (∃ s : State, s.w.length = s.params.nlimb ∧ s.len.toNat ≤ s.params.nlimb ∧ s.len.toNat < 2) ∧
    (∃ s : State, s.w.length = s.params.nlimb ∧ s.len.toNat ≤ s.params.nlimb ∧ 2 ≤ s.len.toNat ∧
      2 ^ (64 * s.len.toNat) ≤ val s.active + s.opa.toNat) ∧
    (∃ s : State, s.w.length = s.params.nlimb ∧ s.len.toNat ≤ s.params.nlimb ∧ 2 ≤ s.len.toNat ∧
      val s.active + s.opa.toNat < 2 ^ (64 * s.len.toNat)) :=
  ⟨⟨limbs [3#64, 0#64, 0#64, 0#64] 5#64 0#64, by decide⟩, ⟨limbs [3#64, 0#64, 0#64, 0#64] 1#64 0#64, by decide⟩,
    ⟨limbs [top, top, 0#64, 0#64] 2#64 1#64, by decide⟩, ⟨limbs [top, top, top, top] 4#64 0#64, by decide⟩⟩

theorem witness_InplaceMulMultipliesTheValue :
    1 ≤ [top, 0#64].length ∧ [top, 0#64].getD (2 - 1) 0#64 = 0#64 := by decide

theorem witness_BmulMultipliesTheActiveLimbs :
    (∃ s : State, s.w.length = s.params.nlimb ∧ s.len.toNat > s.params.nlimb) ∧
    (∃ s : State, s.w.length = s.params.nlimb ∧ s.len.toNat = 0) ∧
    (∃ s : State, s.w.length = s.params.nlimb ∧ s.len.toNat ≤ s.params.nlimb ∧ 1 ≤ s.len.toNat ∧
      s.limb (s.len.toNat - 1) ≠ 0#64) ∧
    (∃ s : State, s.w.length = s.params.nlimb ∧ s.len.toNat ≤ s.params.nlimb ∧ 1 ≤ s.len.toNat ∧
      s.limb (s.len.toNat - 1) = 0#64) :=
  ⟨⟨limbs [0#64, 5#64, 5#64, 5#64] 5#64 58#64, by decide⟩, ⟨limbs [0#64, 5#64, 5#64, 5#64] 0#64 58#64, by decide⟩,
    ⟨limbs [9#64, 5#64, 5#64, 5#64] 1#64 58#64, by decide⟩, ⟨limbs [0#64, 5#64, 5#64, 5#64] 1#64 58#64, by decide⟩⟩

theorem witness_DivRemScalarDividesTheValue : 1 ≤ [100#64].length ∧ (58#64 : Word) ≠ 0#64 := by decide

theorem witness_BdivDividesTheActiveLimbs :
    (∃ s : State, s.w.length = s.params.nlimb ∧ s.len.toNat > s.params.nlimb) ∧
    (∃ s : State, s.w.length = s.params.nlimb ∧ s.len.toNat = 0) ∧
    (∃ s : State, s.w.length = s.params.nlimb ∧ s.len.toNat ≤ s.params.nlimb ∧ 1 ≤ s.len.toNat ∧ s.opa = 0#64) ∧
    (∃ s : State, s.w.length = s.params.nlimb ∧ s.len.toNat ≤ s.params.nlimb ∧ 1 ≤ s.len.toNat ∧ s.opa ≠ 0#64) :=
  ⟨⟨limbs [0#64, 1#64, 5#64, 5#64] 5#64 0#64, by decide⟩, ⟨limbs [0#64, 1#64, 5#64, 5#64] 0#64 0#64, by decide⟩,
    ⟨limbs [0#64, 1#64, 5#64, 5#64] 1#64 0#64, by decide⟩, ⟨limbs [0#64, 1#64, 5#64, 5#64] 4#64 1#64, by decide⟩⟩

/-- M2, and the largest scalar below the multiplier. -/
theorem witness_AddBelowTheMultiplierNeverOverflows :
    ∃ s t : State, s.w.length = s.params.nlimb ∧ 2 ≤ s.len.toNat ∧ s.fatal = false ∧ exec .bmul s = .next t ∧
      t.fatal = false ∧ (0xFFFFFFFFFFFFFFFE#64 : Word).toNat < s.opa.toNat :=
  ⟨limbs [top, top, top, 0#64] 4#64 top, after (exec .bmul (limbs [top, top, top, 0#64] 4#64 top)), by decide, by decide,
    by decide, rfl, by decide, by decide⟩

theorem witness_ChunkDeliversTenDigits :
    (strings ⟨4, 24, 40⟩ [] [] 10#64).effectiveCap .dig = 10 ∧ (strings ⟨4, 24, 40⟩ [] [] 9#64).effectiveCap .dig = 9 := by
  decide

/-- `BLEN` = BCAP + 1; 8 * NLIMB + 1 significant bytes; 8 * NLIMB of them after one leading zero (L10, L11, L12). -/
theorem witness_LdbeLoadsTheBigEndianValue :
    (∃ s : State, LeadingZeroCount (s.cells .buf s.blen.toNat) 0 ∧ s.blen.toNat > s.params.bcap) ∧
    (∃ s : State, LeadingZeroCount (s.cells .buf s.blen.toNat) 0 ∧ s.blen.toNat ≤ s.params.bcap ∧
      s.blen.toNat - 0 > 8 * s.params.nlimb) ∧
    (∃ s : State, LeadingZeroCount (s.cells .buf s.blen.toNat) 1 ∧ s.blen.toNat ≤ s.params.bcap ∧
      s.blen.toNat - 1 ≤ 8 * s.params.nlimb) :=
  ⟨⟨strings ⟨2, 16, 40⟩ (List.replicate 17 1#8) [] top, count_of (by decide), by decide⟩,
    ⟨strings ⟨2, 17, 40⟩ (List.replicate 17 1#8) [] top, count_of (by decide), by decide, by decide⟩,
    ⟨strings ⟨2, 17, 40⟩ (0#8 :: List.replicate 16 1#8) [] top, count_of (by decide), by decide, by decide⟩⟩

theorem witness_LdbePlacesEveryByteInItsLimb :
    ∃ s t : State, s.fatal = false ∧ LeadingZeroCount (s.cells .buf s.blen.toNat) 1 ∧ exec .ldbe s = .next t ∧
      t.err = ErrCode.ok.code ∧ 8 < s.blen.toNat - 1 :=
  ⟨strings ⟨2, 17, 40⟩ (0#8 :: List.replicate 9 1#8) [] top,
    after (exec .ldbe (strings ⟨2, 17, 40⟩ (0#8 :: List.replicate 9 1#8) [] top)), by decide, count_of (by decide), rfl,
    by decide, by decide⟩

/-- T7 and T8: capacity exactly enough, and one short; T10. -/
theorem witness_StbeStoresTheShortestByteString :
    (∃ s : State, s.len.toNat > s.params.nlimb) ∧
    (∃ (s : State) (bs : List Byte), s.len.toNat ≤ s.params.nlimb ∧ be bs = val s.active ∧
      LeastCount 256 (val s.active) bs.length ∧ s.zcnt.toNat + bs.length = s.effectiveCap .buf) ∧
    (∃ (s : State) (bs : List Byte), s.len.toNat ≤ s.params.nlimb ∧ be bs = val s.active ∧
      LeastCount 256 (val s.active) bs.length ∧ s.zcnt.toNat + bs.length = s.effectiveCap .buf + 1) := by
  have hb : LeastCount 256 (val [0x100#64, 0#64]) [1#8, 0#8].length :=
    least_of [1#8, 0#8] (by decide) (by decide) (by decide) (.inr (by decide))
  exact ⟨⟨limbs [1#64, 0#64, 0#64, 0#64] 5#64 0#64, by decide⟩,
    ⟨{ limbs [0x100#64, 0#64, 0#64, 0#64] 2#64 0#64 with zcnt := 1#64, ocap := 3#64 }, [1#8, 0#8], by decide, by decide, hb,
      by decide⟩,
    ⟨{ limbs [0x100#64, 0#64, 0#64, 0#64] 2#64 0#64 with zcnt := 1#64, ocap := 2#64 }, [1#8, 0#8], by decide, by decide, hb,
      by decide⟩⟩

/-- E6 behind one leading zero: capacity exactly enough, and one short; E19 and E16. -/
theorem witness_Enc58DeliversTheBase58Digits :
    (∃ s : State, LeadingZeroCount (s.cells .buf s.blen.toNat) 0 ∧ s.blen.toNat > s.params.bcap) ∧
    (∃ s : State, LeadingZeroCount (s.cells .buf s.blen.toNat) 0 ∧ s.blen.toNat - 0 > 8 * s.params.nlimb) ∧
    (∀ cap ∈ [2#64, 3#64], ∃ (s : State) (ds : List Byte), LeadingZeroCount (s.cells .buf s.blen.toNat) 1 ∧
      s.blen.toNat ≤ s.params.bcap ∧ s.blen.toNat - 1 ≤ 8 * s.params.nlimb ∧
      b58 ds = be (s.cells .buf s.blen.toNat) ∧ (∀ d ∈ ds, d.toNat < 58) ∧
      LeastCount 58 (be (s.cells .buf s.blen.toNat)) ds.length ∧ s.effectiveCap .dig = cap.toNat ∧ 1 + ds.length = 3) := by
  refine ⟨⟨strings ⟨2, 16, 40⟩ (List.replicate 17 1#8) [] top, count_of (by decide), by decide⟩,
    ⟨strings ⟨2, 17, 40⟩ (List.replicate 17 1#8) [] top, count_of (by decide), by decide⟩, fun cap hcap => ?_⟩
  simp only [List.mem_cons, List.not_mem_nil, or_false] at hcap
  rcases hcap with rfl | rfl
  · exact ⟨strings ⟨2, 16, 40⟩ [0#8, 58#8] [] 2#64, [1#8, 0#8], count_of (by decide), by decide, by decide, by decide, by decide,
      least_of [1#8, 0#8] (by decide) (by decide) (by decide) (.inr (by decide)), by decide, by decide⟩
  · exact ⟨strings ⟨2, 16, 40⟩ [0#8, 58#8] [] 3#64, [1#8, 0#8], count_of (by decide), by decide, by decide, by decide, by decide,
      least_of [1#8, 0#8] (by decide) (by decide) (by decide) (.inr (by decide)), by decide, by decide⟩

theorem witness_EncodeLoopMakesOnePassPerTenDigits :
    2 ≤ [58#64, 0#64].length ∧ LeastCount 58 (val ([58#64, 0#64].take 2)) 2 :=
  ⟨by decide, least_of [1#8, 0#8] (by decide) (by decide) (by decide) (.inr (by decide))⟩

/-- X22, X11, X26 (the smallest fatal value), X25 (the largest that is not), and X6 behind one leading zero with capacity
exactly enough and one short. -/
theorem witness_Dec58DeliversTheBytes :
    (∃ s : State, s.params.wf = true ∧ LeadingZeroCount (s.cells .dig s.dlen.toNat) 0 ∧ s.dlen.toNat > s.params.dcap) ∧
    (∃ s : State, s.params.wf = true ∧ LeadingZeroCount (s.cells .dig s.dlen.toNat) 1 ∧ s.dlen.toNat ≤ s.params.dcap ∧
      ∃ d ∈ s.cells .dig s.dlen.toNat, 58 ≤ d.toNat) ∧
    (∃ s : State, s.params.wf = true ∧ LeadingZeroCount (s.cells .dig s.dlen.toNat) 0 ∧ s.dlen.toNat ≤ s.params.dcap ∧
      (∀ d ∈ s.cells .dig s.dlen.toNat, d.toNat < 58) ∧ 2 ≤ (s.cells .dig s.dlen.toNat).length - 0 ∧
      2 ^ (64 * (s.params.nlimb - 1)) = b58 ((s.cells .dig s.dlen.toNat).drop 0).dropLast) ∧
    (∃ s : State, s.params.wf = true ∧ LeadingZeroCount (s.cells .dig s.dlen.toNat) 0 ∧ s.dlen.toNat ≤ s.params.dcap ∧
      (∀ d ∈ s.cells .dig s.dlen.toNat, d.toNat < 58) ∧
      b58 ((s.cells .dig s.dlen.toNat).drop 0).dropLast + 1 = 2 ^ (64 * (s.params.nlimb - 1))) ∧
    (∀ cap ∈ [1#64, 2#64], ∃ (s : State) (bs : List Byte), s.params.wf = true ∧
      LeadingZeroCount (s.cells .dig s.dlen.toNat) 1 ∧ s.dlen.toNat ≤ s.params.dcap ∧
      (∀ d ∈ s.cells .dig s.dlen.toNat, d.toNat < 58) ∧
      b58 ((s.cells .dig s.dlen.toNat).drop 1).dropLast < 2 ^ (64 * (s.params.nlimb - 1)) ∧
      be bs = b58 (s.cells .dig s.dlen.toNat) ∧ LeastCount 256 (b58 (s.cells .dig s.dlen.toNat)) bs.length ∧
      s.effectiveCap .buf = cap.toNat ∧ 1 + bs.length = 2) := by
  refine ⟨⟨strings ⟨2, 24, 2⟩ [] [1#8, 0#8, 0#8] top, by decide, count_of (by decide), by decide⟩,
    ⟨strings ⟨2, 24, 40⟩ [] [0#8, 58#8, 1#8] top, by decide, count_of (by decide), by decide, 58#8, by decide, by decide⟩,
    ⟨strings ⟨2, 24, 40⟩ [] [42#8, 47#8, 30#8, 11#8, 32#8, 37#8, 36#8, 15#8, 38#8, 28#8, 24#8, 0#8] top, by decide,
      count_of (by decide), by decide, by decide, by decide, by decide⟩,
    ⟨strings ⟨2, 24, 40⟩ [] [42#8, 47#8, 30#8, 11#8, 32#8, 37#8, 36#8, 15#8, 38#8, 28#8, 23#8, 57#8] top, by decide,
      count_of (by decide), by decide, by decide, by decide⟩, fun cap hcap => ?_⟩
  simp only [List.mem_cons, List.not_mem_nil, or_false] at hcap
  rcases hcap with rfl | rfl
  · exact ⟨strings ⟨2, 24, 40⟩ [] [0#8, 1#8, 0#8] 1#64, [58#8], by decide, count_of (by decide), by decide, by decide, by decide,
      by decide, least_of [58#8] (by decide) (by decide) (by decide) (.inr (by decide)), by decide, by decide⟩
  · exact ⟨strings ⟨2, 24, 40⟩ [] [0#8, 1#8, 0#8] 2#64, [58#8], by decide, count_of (by decide), by decide, by decide, by decide,
      by decide, least_of [58#8] (by decide) (by decide) (by decide) (.inr (by decide)), by decide, by decide⟩

theorem witness_IllegalDigitWins :
    ∃ s : State, s.dlen.toNat ≤ s.params.dcap ∧ 2 < s.dlen.toNat ∧ 58 ≤ (s.cell .dig 2).toNat :=
  ⟨strings ⟨2, 24, 3⟩ [] [0#8, 1#8, 58#8] top, by decide⟩

/-- The longest digit string the bound allows at NLIMB = 2, after one leading zero: 58^10 < 2^64 < 58^11. -/
theorem witness_BoundedDigitStringNeverHalts :
    ∃ s : State, s.params.wf = true ∧ s.fatal = false ∧ LeadingZeroCount (s.cells .dig s.dlen.toNat) 1 ∧
      58 ^ (s.dlen.toNat - 1 - 1) ≤ 2 ^ (64 * (s.params.nlimb - 1)) :=
  ⟨strings ⟨2, 24, 40⟩ [] (0#8 :: List.replicate 11 57#8) top, by decide, by decide, count_of (by decide), by decide⟩

theorem witness_LeadingZerosArePreserved :
    (∃ s t : State, s.fatal = false ∧ LeadingZeroCount (s.cells .buf s.blen.toNat) 2 ∧ exec .enc58 s = .next t ∧
      t.err = ErrCode.ok.code) ∧
    (∃ s t : State, s.fatal = false ∧ LeadingZeroCount (s.cells .dig s.dlen.toNat) 3 ∧ exec .dec58 s = .next t ∧
      t.fatal = false ∧ t.err = ErrCode.ok.code) :=
  ⟨⟨strings ⟨2, 24, 40⟩ [0#8, 0#8, 1#8] [] top, after (exec .enc58 (strings ⟨2, 24, 40⟩ [0#8, 0#8, 1#8] [] top)), by decide,
      count_of (by decide), rfl, by decide⟩,
    ⟨strings ⟨2, 24, 40⟩ [] [0#8, 0#8, 0#8] top, after (exec .dec58 (strings ⟨2, 24, 40⟩ [] [0#8, 0#8, 0#8] top)), by decide,
      count_of (by decide), rfl, by decide, by decide⟩⟩

/-- The largest byte string the bound allows, and capacities exactly enough: 8 bytes of 0xFF at NLIMB = 2 (E10). -/
theorem witness_DecodeUndoesEncode :
    ∃ s : State, s.params.wf = true ∧ s.blen.toNat ≤ s.params.bcap ∧ LeadingZeroCount (s.cells .buf s.blen.toNat) 1 ∧
      s.blen.toNat - 1 ≤ 8 * (s.params.nlimb - 1) ∧ LeastCount 58 (be (s.cells .buf s.blen.toNat)) 11 ∧
      1 + 11 ≤ s.effectiveCap .dig ∧ s.blen.toNat ≤ s.ocap.toNat :=
  ⟨strings ⟨2, 9, 12⟩ (0#8 :: List.replicate 8 255#8) [] 12#64, by decide, by decide, count_of (by decide), by decide,
    least_of [42#8, 47#8, 30#8, 11#8, 32#8, 37#8, 36#8, 15#8, 38#8, 28#8, 23#8] (by decide) (by decide) (by decide) (.inr (by decide)), by decide, by decide⟩

theorem witness_EncodeUndoesDecode :
    ∃ s t : State, s.params.wf = true ∧ s.fatal = false ∧ s.dlen.toNat ≤ s.ocap.toNat ∧ exec .dec58 s = .next t ∧
      t.fatal = false ∧ t.err = ErrCode.ok.code :=
  ⟨strings ⟨2, 24, 40⟩ [] [0#8, 1#8, 0#8] 3#64, after (exec .dec58 (strings ⟨2, 24, 40⟩ [] [0#8, 1#8, 0#8] 3#64)), by decide,
    by decide, by decide, rfl, by decide, by decide⟩

/-- X20. -/
theorem witness_StbeRetriesAfterOutputTooSmall :
    ∃ s t : State, s.params.wf = true ∧ s.fatal = false ∧ LeadingZeroCount (s.cells .dig s.dlen.toNat) 2 ∧
      exec .dec58 s = .next t ∧ t.fatal = false ∧ t.err = ErrCode.outputTooSmall.code ∧
      ∃ bs, be bs = b58 (s.cells .dig s.dlen.toNat) ∧ LeastCount 256 (b58 (s.cells .dig s.dlen.toNat)) bs.length ∧
        2 + bs.length = min (5#64 : Word).toNat s.params.bcap :=
  ⟨strings ⟨2, 24, 40⟩ [] [0#8, 0#8, 19#8, 36#8, 47#8] 4#64,
    after (exec .dec58 (strings ⟨2, 24, 40⟩ [] [0#8, 0#8, 19#8, 36#8, 47#8] 4#64)), by decide, by decide,
    count_of (by decide), rfl, by decide, by decide, [1#8, 2#8, 3#8], by decide,
    least_of [1#8, 2#8, 3#8] (by decide) (by decide) (by decide) (.inr (by decide)), by decide⟩

/-- For each of the three commands, an end with a result other than the two early errors. -/
theorem witness_WholeBufferCommandsIgnoreTheOldNumber :
    ∀ i ∈ [Instr.ldbe, .enc58, .dec58],
      (after (exec i (strings ⟨2, 24, 40⟩ [1#8] [1#8] top))).err ≠ ErrCode.inputTooLarge.code ∧
        (after (exec i (strings ⟨2, 24, 40⟩ [1#8] [1#8] top))).err ≠ ErrCode.badChar.code := by decide

theorem reset_legal : State.reset.StatusLegal :=
  ⟨fun j hj => by simp [State.reset, State.resetAt], .inl ⟨by decide, by decide, .ok, by decide, by decide⟩⟩

theorem witness_CommandsEndOnlyAsTheTableLists :
    ∃ s t u : State, s.params.wf = true ∧ s.w.length = s.params.nlimb ∧ s.StatusLegal ∧ s.fatal = false ∧
      exec .bclr s = .next t ∧ exec .badd s = .next u :=
  ⟨State.reset, _, _, by decide, by decide, reset_legal, by decide, rfl, rfl⟩

theorem witness_EarlyDataErrorsChangeOnlyErr :
    (∃ s t : State, s.fatal = false ∧ exec .ldbe s = .next t ∧ t.fatal = false ∧ t.err = ErrCode.inputTooLarge.code) ∧
    (∃ s t : State, s.fatal = false ∧ exec .dec58 s = .next t ∧ t.fatal = false ∧ t.err = ErrCode.badChar.code) :=
  ⟨⟨strings ⟨2, 16, 40⟩ (List.replicate 17 1#8) [] top,
      after (exec .ldbe (strings ⟨2, 16, 40⟩ (List.replicate 17 1#8) [] top)), by decide, rfl, by decide, by decide⟩,
    ⟨strings ⟨2, 16, 40⟩ [] [58#8] top, after (exec .dec58 (strings ⟨2, 16, 40⟩ [] [58#8] top)), by decide, rfl, by decide,
      by decide⟩⟩

theorem witness_FatalEntryKeepsNothingButStatus :
    3 < State.reset.params.nlimb ∧
      ∃ s' : State, s'.params = State.reset.params ∧ s'.draw = State.reset.draw ∧ s'.script = State.reset.script ∧
        s'.pos = State.reset.pos ∧ s'.reads = State.reset.reads ∧ s' ≠ State.reset :=
  ⟨by decide, scalars 1#64 2#64 3#64, rfl, rfl, rfl, rfl, rfl, fun h => absurd (congrArg State.opa h) (by decide)⟩

theorem witness_HaltedBlockIgnoresEveryAction :
    ∃ s : State, s.fatal = true ∧ s.script = [.writeReg 0#16 1#64] ∧ HostAction.writeReg 0#16 1#64 ≠ .reset ∧
      (HostAction.writeReg 0#16 1#64).isRead = false :=
  ⟨withScript (State.reset.raiseFatal .mulTop) [.writeReg 0#16 1#64], by decide, rfl, by decide, by decide⟩

/-- The first and last number of each clause, the first and last limb, the last cell of each buffer and the first index
that is none. -/
theorem witness_HaltedReadsAnswerUnspecifiedValues :
    (∀ n ∈ [0#16, 1#16, 2#16, 0xB#16, 0xC#16, 0xD#16, 0xE#16, 0xF#16, 0xFF#16, 0x100#16, 0x103#16, 0x104#16],
      ∃ s : State, s.fatal = true ∧ s.script = [.readReg n] ∧ s.params.nlimb = 4) ∧
    (∃ s : State, s.fatal = true ∧ s.script = [.readBuf 23#32] ∧ (23#32).toNat < s.params.bcap) ∧
    (∃ s : State, s.fatal = true ∧ s.script = [.readBuf 24#32] ∧ s.params.bcap ≤ (24#32).toNat) ∧
    (∃ s : State, s.fatal = true ∧ s.script = [.readDig 39#32] ∧ (39#32).toNat < s.params.dcap) ∧
    (∃ s : State, s.fatal = true ∧ s.script = [.readDig 40#32] ∧ s.params.dcap ≤ (40#32).toNat) :=
  ⟨fun n _ => ⟨withScript (State.reset.raiseFatal .mulTop) [.readReg n], (withScript_fatal _ _).trans (by decide), rfl, rfl⟩,
    ⟨withScript (State.reset.raiseFatal .mulTop) [.readBuf 23#32], by decide, rfl, by decide⟩,
    ⟨withScript (State.reset.raiseFatal .mulTop) [.readBuf 24#32], by decide, rfl, by decide⟩,
    ⟨withScript (State.reset.raiseFatal .mulTop) [.readDig 39#32], by decide, rfl, by decide⟩,
    ⟨withScript (State.reset.raiseFatal .mulTop) [.readDig 40#32], by decide, rfl, by decide⟩⟩

theorem witness_OnlyResetLeavesTheHalt :
    ∃ s t : State, s.fatal = true ∧ step s = .next t ∧ t.fatal = false :=
  ⟨withScript (State.reset.raiseFatal .mulTop) [.reset],
    after (step (withScript (State.reset.raiseFatal .mulTop) [.reset])), by decide, rfl, by decide⟩

theorem witness_ResetPutsEveryResetValue :
    ∃ s : State, s.script = [.reset] ∧ s.fatal = true ∧ 3 < s.params.nlimb :=
  ⟨withScript (State.reset.raiseFatal .mulTop) [.reset], rfl, by decide, by decide⟩

/-- The smallest and the largest instance that R5 allows. -/
theorem witness_ResetMeetsTheInvariant :
    Params.wf ⟨2, 0, 0⟩ = true ∧ Params.wf ⟨65280, 2 ^ 32 - 1, 2 ^ 32 - 1⟩ = true := by decide

/-- A state that lists a cell in each buffer, with a step that writes another. -/
theorem witness_EveryStepKeepsTheInvariant :
    ∃ s t : State, s.Inv ∧ step s = .next t ∧ s.buf ≠ [] ∧ t.buf ≠ s.buf :=
  ⟨{ State.reset with buf := [(23, 7#8)], dig := [(39, 7#8)], script := [.writeBuf 0#32 1#8] }, _,
    { params := by decide
      limbs := by decide
      memory := fun b => by cases b <;> decide
      bounds := fun b => by cases b <;> decide
      status := reset_legal
      epoch := by decide }, rfl, by decide, by decide⟩

theorem witness_CommandsWriteOnlyTheirRegisters :
    ∃ s t : State, s.fatal = false ∧ exec .bclr s = .next t ∧ t.fatal = false ∧ t.w ≠ s.w :=
  ⟨limbs [1#64, 2#64, 3#64, 4#64] 2#64 5#64, after (exec .bclr (limbs [1#64, 2#64, 3#64, 4#64] 2#64 5#64)), by decide, rfl,
    by decide, by decide⟩

theorem witness_StatusChangesOnlyByCommandOrReset :
    ∃ s t : State, s.script = [.writeReg 1#16 top] ∧ step s = .next t ∧ HostAction.writeReg 1#16 top ≠ .reset ∧
      (HostAction.writeReg 1#16 top).isIssue = false :=
  ⟨withScript State.reset [.writeReg 1#16 top], after (step (withScript State.reset [.writeReg 1#16 top])), rfl, rfl,
    by decide, by decide⟩

theorem witness_ReadsHaveNoSideEffect :
    ∃ s : State, s.script = [.readReg 1#16] ∧ (HostAction.readReg 1#16).isRead = true ∧ s.fatal = false :=
  ⟨withScript State.reset [.readReg 1#16], rfl, by decide, by decide⟩

theorem witness_DataWritesAreIdempotent :
    ∀ a ∈ [HostAction.writeReg 0x103#16 top, .writeBuf 23#32 1#8, .writeDig 39#32 1#8],
      a.isRead = false ∧ a.isIssue = false ∧ a ≠ .reset ∧ ∃ t, perform a State.reset = .next t := by
  intro a ha
  refine ⟨by revert a; decide, by revert a; decide, by revert a; decide, ?_⟩
  fin_cases ha <;> exact ⟨_, rfl⟩

/-- Reads and writes of every named register, the first and last limb, the first and last reserved numbers on both
sides of the limb file. -/
theorem witness_RegisterSpaceReadsAndWrites :
    State.reset.fatal = false ∧
    (∀ n : BitVec 16, (∃ s : State, s.fatal = false ∧ s.script = [.readReg n]) ∧
      ∃ s : State, s.fatal = false ∧ s.script = [.writeReg n top]) ∧
    (0x100#16).toNat = 0x0100 + 0 ∧ (0x103#16).toNat = 0x0100 + 3 ∧ 3 < State.reset.params.nlimb ∧
    (0x000F ≤ (0x00F#16).toNat ∧ (0x0FF#16).toNat ≤ 0x00FF) ∧ 0x0100 + State.reset.params.nlimb ≤ (0x104#16).toNat :=
  ⟨by decide, fun n => ⟨⟨withScript State.reset [.readReg n], (withScript_fatal _ _).trans (by decide), rfl⟩,
    ⟨withScript State.reset [.writeReg n top], (withScript_fatal _ _).trans (by decide), rfl⟩⟩, by decide⟩

/-- The last cell, and the first index that is none. -/
theorem witness_BufferSpacesReadAndWrite :
    (∀ i ∈ [23#32, 24#32], (∃ s : State, s.fatal = false ∧ s.script = [.readBuf i]) ∧
      ∃ s : State, s.fatal = false ∧ s.script = [.writeBuf i 1#8]) ∧
    (∀ i ∈ [39#32, 40#32], (∃ s : State, s.fatal = false ∧ s.script = [.readDig i]) ∧
      ∃ s : State, s.fatal = false ∧ s.script = [.writeDig i 1#8]) ∧
    (23#32).toNat < State.reset.params.bcap ∧ State.reset.params.bcap ≤ (24#32).toNat ∧
    (39#32).toNat < State.reset.params.dcap ∧ State.reset.params.dcap ≤ (40#32).toNat :=
  ⟨fun i _ => ⟨⟨withScript State.reset [.readBuf i], (withScript_fatal _ _).trans (by decide), rfl⟩, ⟨withScript State.reset [.writeBuf i 1#8], (withScript_fatal _ _).trans (by decide), rfl⟩⟩,
    fun i _ => ⟨⟨withScript State.reset [.readDig i], (withScript_fatal _ _).trans (by decide), rfl⟩, ⟨withScript State.reset [.writeDig i 1#8], (withScript_fatal _ _).trans (by decide), rfl⟩⟩,
    by decide, by decide, by decide, by decide⟩

end Sys2Proof.Tests
end

namespace Sys2Proof.Machine

/-! ## What one host action can do (20_memory.md R51 to R53, R63) -/

/-- The next states of one host action, up to the values it reads or computes: the inversion of `perform`. -/
inductive Performs (s : State) : HostAction → State → Prop where
  | reads (a : HostAction) (v : ReadValue) (h : a.isRead = true) : Performs s a (s.answer v)
  | readsFree (a : HostAction) (v : ReadValue) (h : a.isRead = true) (hf : s.fatal = true) :
      Performs s a (s.answer v).drawn
  | ignored (a : HostAction) (h : a.isRead = false) (hr : a ≠ .reset) : Performs s a s
  | setsReg (n : BitVec 16) (v : Word) (h : s.regAt n ≠ .cmd) (hf : s.fatal = false) :
      Performs s (.writeReg n v) (s.setReg (s.regAt n) v)
  | setsCell (a : HostAction) (b : Buffer) (i : BitVec 32) (v : Byte) (hf : s.fatal = false)
      (h : (a, b) ∈ [(HostAction.writeBuf i v, Buffer.buf), (.writeDig i v, .dig)]) (hi : i.toNat < s.capacity b) :
      Performs s a (s.setMem b ((s.mem b).splice i.toNat [v]))
  | rejects (v : Word) (hf : s.fatal = false) : Performs s (.writeReg 0#16 v) (s.setErr .unknown)
  | runs (v : Word) (i : Instr) (t : State) (hf : s.fatal = false) (hi : decode v = .ok i) (h : Ends s i t) :
      Performs s (.writeReg 0#16 v) t
  | resets : Performs s .reset s.resetBlock

theorem performs_readRegister (s : State) (n : BitVec 16) : Performs s (.readReg n) (s.readRegister n) := by
  rw [State.readRegister]
  split
  · rename_i h
    exact .readsFree _ _ rfl (Bool.and_eq_true_iff.1 h).1
  · exact .reads _ _ rfl

theorem performs_readCell {s : State} {a : HostAction} (b : Buffer) (i : BitVec 32) (h : a.isRead = true) :
    Performs s a (s.readCell b i) := by
  rw [State.readCell]
  split
  · split
    · rename_i hf
      exact .readsFree _ _ h hf
    · exact .reads _ _ h
  · exact .reads _ _ h

theorem performs_writeCell {s : State} {a : HostAction} {b : Buffer} {i : BitVec 32} {v : Byte}
    (h : (a, b) ∈ [(HostAction.writeBuf i v, Buffer.buf), (.writeDig i v, .dig)]) :
    Performs s a (s.writeCell b i v) := by
  have hwrite : a.isRead = false ∧ a ≠ .reset := by
    simp only [List.mem_cons, Prod.mk.injEq, List.not_mem_nil, or_false] at h
    obtain ⟨rfl, -⟩ | ⟨rfl, -⟩ := h <;> exact ⟨rfl, by simp⟩
  rw [State.writeCell]
  split
  · exact .ignored _ hwrite.1 hwrite.2
  · rename_i hf
    split
    · rename_i hi
      exact .setsCell _ _ _ _ (by simpa using hf) h hi
    · exact .ignored _ hwrite.1 hwrite.2

theorem performs_issue {s t : State} {v : Word} (h : issue v s = .next t) : Performs s (.writeReg 0#16 v) t := by
  cases hf : s.fatal with
  | true =>
    obtain rfl : s = t := by simpa [issue_halted hf] using h
    exact .ignored _ rfl (by simp)
  | false =>
    cases hd : decode v with
    | error e =>
      obtain rfl : _ = t := by simpa [issue_illegal hf hd] using h
      exact .rejects v hf
    | ok i => exact .runs v i t hf hd (exec_ends (by rwa [issue_legal hf hd] at h))

theorem performs_writeRegister {s t : State} {n : BitVec 16} {v : Word} (h : writeRegister n v s = .next t) :
    Performs s (.writeReg n v) t := by
  by_cases hn : s.regAt n = .cmd
  · obtain rfl := State.regAt_eq_cmd hn
    exact performs_issue h
  · rw [writeRegister_data v s hn] at h
    cases hf : s.fatal with
    | true =>
      obtain rfl : s = t := by simpa [hf] using h
      exact .ignored _ rfl (by simp)
    | false =>
      obtain rfl : _ = t := by simpa [hf] using h
      exact .setsReg n v hn hf

/-- Every host action ends in one of the ways of `Performs`. -/
theorem perform_performs {a : HostAction} {s t : State} (h : perform a s = .next t) : Performs s a t := by
  cases a <;> simp only [perform, Host.Outcome.next.injEq] at h
  case readReg n => exact h ▸ performs_readRegister s n
  case writeReg n v => exact performs_writeRegister h
  case readBuf i => exact h ▸ performs_readCell .buf i rfl
  case writeBuf i v => exact h ▸ performs_writeCell (by simp)
  case readDig i => exact h ▸ performs_readCell .dig i rfl
  case writeDig i v => exact h ▸ performs_writeCell (by simp)
  case reset => exact h ▸ .resets

/-- A step with an action left is that action, performed past it. -/
theorem step_performs {s t : State} {a : HostAction} {rest : List HostAction} (hs : s.script = a :: rest)
    (h : step s = .next t) : Performs s.advance a t :=
  perform_performs (step_cons hs ▸ h)

/-- No action touches the parameters, the rest of the script or the position. -/
theorem Performs.host {s t : State} {a : HostAction} (h : Performs s a t) :
    t.params = s.params ∧ t.script = s.script ∧ t.pos = s.pos := by
  cases h with
  | runs v i t hf hi h =>
    obtain ⟨hp, hs, hpos, -⟩ := h.host
    exact ⟨hp, hs, hpos⟩
  | _ => simp

/-- Only a write to `CMD` and `Reset` reach `STATUS`. -/
theorem Performs.status {s t : State} {a : HostAction} (h : Performs s a t) (hr : a ≠ .reset)
    (hi : a.isIssue = false) : t.status = s.status := by
  cases h with
  | rejects | runs => simp [HostAction.isIssue] at hi
  | resets => exact absurd rfl hr
  | _ => simp

/-- Settles O7: the step moves past its action, and what the action does leaves the script and the position. -/
theorem everyActionAdvancesThePosition : Obligations.EveryActionAdvancesThePosition := by
  intro s t h
  refine ⟨fun a rest hs => ?_, fun hs => ?_⟩
  · obtain ⟨-, hscript, hpos⟩ := (step_performs hs h).host
    exact ⟨hpos, by rw [hscript, State.advance_script, hs, List.tail_cons]⟩
  · rw [step_nil hs] at h
    exact (Host.Outcome.next.inj h).symm

/-- Settles O46: of the ways an action ends, only those of a `CMD` write and of `Reset` change `STATUS`. -/
theorem statusChangesOnlyByCommandOrReset : Obligations.StatusChangesOnlyByCommandOrReset := by
  intro s t a rest hs h hr hi
  rw [(step_performs hs h).status hr hi, State.advance_status]

/-! ## The invariant -/

@[simp] theorem freeLimbs_length (e n : Nat) : (freeLimbs e n).length = n := by
  simp [freeLimbs]

/-- The `STATUS` of R37 is legal: no failure, no cause, the result `OK`. -/
theorem State.statusLegal_of_zero {s : State} (h : s.status = 0#64) : s.StatusLegal := by
  refine ⟨fun j _ => by simp [h], .inl ⟨?_, ?_, .ok, by simp [raisedErrs], ?_⟩⟩
  · simp [State.fatal, h]
  · simp [State.fcause, h]
  · simp [State.err, h, ErrCode.code]

/-- A state whose buffers list nothing meets the clauses on cells. -/
theorem State.Inv.of_unlisted {t : State} (hp : t.params.wf = true) (hw : t.w.length = t.params.nlimb)
    (hm : ∀ b, t.mem b = []) (hs : t.StatusLegal) (he : t.epoch < t.draw) : t.Inv where
  params := hp
  limbs := hw
  memory b := hm b ▸ Memory.wf_nil
  bounds b := by simp [hm b]
  status := hs
  epoch := he

/-- The invariant follows a change that keeps the parameters, the number of limbs and the epoch, leaves a legal
`STATUS`, and splices into each buffer below its capacity or leaves it. -/
theorem State.Inv.of_frame {s t : State} (h : s.Inv) (hp : t.params = s.params) (hw : t.w.length = s.params.nlimb)
    (hm : ∀ b, t.mem b = s.mem b ∨
      ∃ start vs, start + vs.length ≤ s.capacity b ∧ t.mem b = (s.mem b).splice start vs)
    (hs : t.StatusLegal) (he : t.epoch = s.epoch) (hd : s.draw ≤ t.draw) : t.Inv where
  params := hp ▸ h.params
  limbs := hp ▸ hw
  memory b := by
    obtain hb | ⟨start, vs, -, hb⟩ := hm b
    · exact hb ▸ h.memory b
    · exact hb ▸ Memory.wf_splice (h.memory b) start vs
  bounds b c hc := by
    have hcap : t.capacity b = s.capacity b := by cases b <;> simp [hp]
    rw [hcap]
    obtain hb | ⟨start, vs, hle, hb⟩ := hm b
    · exact h.bounds b c (hb ▸ hc)
    · obtain hold | hnew := Memory.mem_splice (hb ▸ hc)
      · exact h.bounds b c hold
      · omega
  status := hs
  epoch := by
    have := h.epoch
    omega

/-! Each operation of the model keeps the invariant -/

theorem State.Inv.advance {s : State} (h : s.Inv) : s.advance.Inv :=
  h.of_frame rfl h.limbs (fun b => .inl (s.advance_mem b)) (h.status.of_eq rfl) rfl le_rfl

theorem State.Inv.answer {s : State} (h : s.Inv) (v : ReadValue) : (s.answer v).Inv :=
  h.of_frame rfl h.limbs (fun b => .inl (by cases b <;> rfl)) (h.status.of_eq rfl) rfl le_rfl

theorem State.Inv.drawn {s : State} (h : s.Inv) : s.drawn.Inv :=
  h.of_frame rfl h.limbs (fun b => .inl (by cases b <;> rfl)) (h.status.of_eq rfl) rfl (Nat.le_succ _)

theorem State.Inv.setReg {s : State} (h : s.Inv) (r : Reg) (v : Word) : (s.setReg r v).Inv :=
  h.of_frame (by simp) (by simpa using h.limbs) (fun b => .inl (by simp)) (h.status.of_eq (by simp)) (by simp) (by simp)

theorem State.Inv.setResults {s : State} (h : s.Inv) (p : Word × Word) : (s.setResults p).Inv :=
  h.of_frame rfl h.limbs (fun b => .inl (by cases b <;> rfl)) (h.status.of_eq rfl) rfl le_rfl

/-- A new limb file of NLIMB limbs, with a new `R1` (BDIV) or the old one. -/
theorem State.Inv.setLimbs {s : State} (h : s.Inv) {w : List Word} (hw : w.length = s.params.nlimb) (r : Word) :
    ({ s with w := w, r1 := r } : State).Inv :=
  h.of_frame rfl hw (fun b => .inl (by cases b <;> rfl)) (h.status.of_eq rfl) rfl le_rfl

theorem State.Inv.setNumber {s : State} (h : s.Inv) (k : Nat) {w : List Word} (hw : w.length = s.params.nlimb) :
    (s.setNumber k w).Inv :=
  h.of_frame rfl hw (fun b => .inl (by cases b <;> rfl)) (h.status.of_eq rfl) rfl le_rfl

theorem State.Inv.setErr {s : State} (h : s.Inv) (hf : s.fatal = false) {e : ErrCode} (he : e ∈ raisedErrs) :
    (s.setErr e).Inv :=
  h.of_frame rfl h.limbs (fun b => .inl (s.setErr_mem b e)) (h.status.of_errBecomes hf he (errBecomes_setErr s e)) rfl
    le_rfl

/-- R53: the cell that a host write reaches is below the capacity. -/
theorem State.Inv.setCell {s : State} (h : s.Inv) {b : Buffer} {i : Nat} (hi : i < s.capacity b) (v : Byte) :
    (s.setMem b ((s.mem b).splice i [v])).Inv := by
  refine h.of_frame (by simp) (by simpa using h.limbs) (fun b' => ?_) (h.status.of_eq (by simp)) (by simp) (by simp)
  rw [State.setMem_mem]
  split
  · rename_i hb
    exact .inr ⟨i, [v], hb ▸ hi, hb ▸ rfl⟩
  · exact .inl rfl

/-- R151: a delivery writes below the effective capacity, which is at most the physical one. -/
theorem State.Inv.deliver {s : State} (h : s.Inv) (hf : s.fatal = false) (b : Buffer) (zeros : Nat) (body : List Byte) :
    (s.deliver b zeros body).Inv := by
  obtain ⟨vs, hvs, hmem⟩ := s.deliver_mem b zeros body
  obtain ⟨e, he, herr⟩ := s.deliver_errBecomes b zeros body
  have hraised : e ∈ raisedErrs := by rcases he with rfl | rfl <;> decide
  have hcap : s.effectiveCap b ≤ s.capacity b := Nat.min_le_right _ _
  refine h.of_frame (by simp) (by simpa using h.limbs) (fun b' => ?_) (h.status.of_errBecomes hf hraised herr) (by simp)
    (s.draw_le_deliver b zeros body)
  rw [hmem b']
  split
  · rename_i hb
    subst hb
    exact .inr ⟨0, vs, by omega, rfl⟩
  · exact .inl rfl

theorem State.Inv.raiseFatal {s : State} (h : s.Inv) (c : FatalCause) : (s.raiseFatal c).Inv :=
  .of_unlisted h.params (by simp) (by rintro (_ | _) <;> rfl) (s.statusLegal_raiseFatal c) (Nat.lt_succ_self _)

/-- R37: with parameters that R5 allows the reset state meets the invariant, whatever its event. -/
theorem State.inv_resetAt {p : Params} (e : Nat) (hp : p.wf = true) : (State.resetAt p e).Inv :=
  .of_unlisted hp (freeLimbs_length e p.nlimb) (by rintro (_ | _) <;> rfl) (State.statusLegal_of_zero rfl)
    (Nat.lt_succ_self e)

theorem State.Inv.resetBlock {s : State} (h : s.Inv) : s.resetBlock.Inv :=
  .of_unlisted h.params (by simp) (by rintro (_ | _) <;> rfl) (State.statusLegal_of_zero rfl) (Nat.lt_succ_self _)

/-- Every way a command ends keeps the invariant. -/
theorem Ends.inv {i : Instr} {s t : State} (h : Ends s i t) (hs : s.Inv) (hf : s.fatal = false) : t.Inv := by
  have hok : ErrCode.ok ∈ raisedErrs := by decide
  cases h with
  | scalar _ p => exact (hs.setResults p).setErr hf hok
  | limbs _ w _ hl => exact (hs.setLimbs (hl hs.limbs) s.r1).setErr hf hok
  | divided w r hl => exact (hs.setLimbs (hl hs.limbs) r).setErr hf hok
  | loaded k w hl => exact (hs.setNumber k hl).setErr hf hok
  | fails _ e he =>
    refine hs.setErr hf ?_
    simp only [List.mem_cons, Prod.mk.injEq, List.not_mem_nil, or_false] at he
    rcases he with ⟨-, rfl⟩ | ⟨-, rfl⟩ | ⟨-, rfl⟩ | ⟨-, rfl⟩ <;> decide
  | fills _ b zeros body => exact hs.deliver hf b zeros body
  | converts _ b k w zeros body _ hl => exact (hs.setNumber k hl).deliver hf b zeros body
  | halts _ c => exact hs.raiseFatal c

/-- Every way a host action ends keeps the invariant. -/
theorem Performs.inv {a : HostAction} {s t : State} (h : Performs s a t) (hs : s.Inv) : t.Inv := by
  cases h with
  | reads _ v => exact hs.answer v
  | readsFree _ v => exact (hs.answer v).drawn
  | ignored => exact hs
  | setsReg n v => exact hs.setReg _ v
  | setsCell _ b i v _ _ hi => exact hs.setCell hi v
  | rejects v hf => exact hs.setErr hf (by decide)
  | runs v i t hf _ h => exact h.inv hs hf
  | resets => exact hs.resetBlock

/-- Settles O44: a step is one action performed past it, or nothing. -/
theorem everyStepKeepsTheInvariant : Obligations.EveryStepKeepsTheInvariant := by
  intro s t hs h
  cases hscript : s.script with
  | nil =>
    rw [step_nil hscript] at h
    exact Host.Outcome.next.inj h ▸ hs
  | cons a rest => exact (step_performs hscript h).inv hs.advance

/-- Settles O43: R37 puts every register at its value, and the limbs and cells are unlisted free values of one event. -/
theorem resetMeetsTheInvariant : Obligations.ResetMeetsTheInvariant := by
  refine ⟨State.inv_resetAt 0 (by decide), fun p e hp => State.inv_resetAt e hp, fun p e => ?_⟩
  simp [State.resetAt]

/-! ## The old number (10_state.md R36, 43_chunked_converter.md R150) -/

/-- The state with another limb file, `LEN` and `ZCNT`, and else the same. -/
def State.replaceNumber (s : State) (w : List Word) (len zcnt : Word) : State :=
  { s with w := w, len := len, zcnt := zcnt }

/-- Loading a number forgets the old one. -/
theorem State.replaceNumber_setNumber (s : State) (w : List Word) (len zcnt : Word) (k : Nat) (w' : List Word) :
    (s.replaceNumber w len zcnt).setNumber k w' = s.setNumber k w' := rfl

theorem State.replaceNumber_cells (s : State) (w : List Word) (len zcnt : Word) (b : Buffer) (n : Nat) :
    (s.replaceNumber w len zcnt).cells b n = s.cells b n :=
  State.cells_congr (fun i => State.cell_congr (by cases b <;> rfl) rfl i) n

theorem State.replaceNumber_raiseFatal (s : State) (w : List Word) (len zcnt : Word) (c : FatalCause) :
    (s.replaceNumber w len zcnt).raiseFatal c = s.raiseFatal c :=
  State.raiseFatal_congr c rfl rfl rfl rfl rfl

/-- The load of R160 answers the same, its whole state included: it reads `BUF` and `BLEN` only. -/
theorem State.replaceNumber_loadBe (s : State) (w : List Word) (len zcnt : Word) :
    (s.replaceNumber w len zcnt).loadBe = s.loadBe := by
  simp only [State.loadBe, State.replaceNumber_cells, State.replaceNumber_setNumber]
  rfl

/-- The two ways the outcomes `o` and `o'` of one command from `s` and `s'` can agree: one next state, or the same data
error raised before anything was written. -/
def SameOrEarlyError (s s' : State) (o o' : Host.Outcome State Fault Refusal) : Prop :=
  (∃ t, o = .next t ∧ o' = .next t) ∨
    ∃ e ∈ [ErrCode.inputTooLarge, .badChar], o = .next (s.setErr e) ∧ o' = .next (s'.setErr e)

theorem execLdbe_replaceNumber (s : State) (w : List Word) (len zcnt : Word) :
    SameOrEarlyError s (s.replaceNumber w len zcnt) (execLdbe s) (execLdbe (s.replaceNumber w len zcnt)) := by
  simp only [execLdbe, State.replaceNumber_loadBe]
  obtain ⟨-, he⟩ | ⟨-, -, w', he, -⟩ := s.loadBe_cases <;> rw [he]
  · exact .inr ⟨.inputTooLarge, by simp, rfl, rfl⟩
  · exact .inl ⟨_, rfl, rfl⟩

theorem execEnc58_replaceNumber (s : State) (w : List Word) (len zcnt : Word) :
    SameOrEarlyError s (s.replaceNumber w len zcnt) (execEnc58 s) (execEnc58 (s.replaceNumber w len zcnt)) := by
  simp only [execEnc58, State.replaceNumber_loadBe]
  obtain ⟨-, he⟩ | ⟨-, -, w', he, -⟩ := s.loadBe_cases <;> rw [he]
  · exact .inr ⟨.inputTooLarge, by simp, rfl, rfl⟩
  · left
    dsimp only
    split <;> exact ⟨_, rfl, rfl⟩

theorem execDec58_replaceNumber (s : State) (w : List Word) (len zcnt : Word) :
    SameOrEarlyError s (s.replaceNumber w len zcnt) (execDec58 s) (execDec58 (s.replaceNumber w len zcnt)) := by
  have hdlen : (s.replaceNumber w len zcnt).dlen = s.dlen := rfl
  have hparams : (s.replaceNumber w len zcnt).params = s.params := rfl
  simp only [execDec58, hdlen, hparams, State.replaceNumber_cells, State.replaceNumber_setNumber,
    State.replaceNumber_raiseFatal]
  split
  · exact .inr ⟨.inputTooLarge, by simp, rfl, rfl⟩
  · split
    · left
      split <;> exact ⟨_, rfl, rfl⟩
    · exact .inr ⟨.badChar, by simp, rfl, rfl⟩

/-- The three commands of R150 do not see the old number. -/
theorem exec_replaceNumber {i : Instr} (hi : i ∈ [Instr.ldbe, .enc58, .dec58]) (s : State) (w : List Word)
    (len zcnt : Word) :
    SameOrEarlyError s (s.replaceNumber w len zcnt) (exec i s) (exec i (s.replaceNumber w len zcnt)) := by
  simp only [List.mem_cons, List.not_mem_nil, or_false] at hi
  rcases hi with rfl | rfl | rfl
  · exact execLdbe_replaceNumber s w len zcnt
  · exact execEnc58_replaceNumber s w len zcnt
  · exact execDec58_replaceNumber s w len zcnt

/-- Settles O35: the next states are one, or both commands failed early and left the same `STATUS`. -/
theorem wholeBufferCommandsIgnoreTheOldNumber : Obligations.WholeBufferCommandsIgnoreTheOldNumber := by
  intro s i w len zcnt hi
  obtain ⟨t, h, h'⟩ | ⟨e, he, h, h'⟩ := exec_replaceNumber hi s w len zcnt
  · exact ⟨t, t, h, h', rfl, fun _ _ => rfl⟩
  · refine ⟨_, _, h, h', rfl, fun hlarge hchar => ?_⟩
    simp only [List.mem_cons, List.not_mem_nil, or_false] at he
    obtain rfl | rfl := he
    · exact absurd (s.setErr_err _) hlarge
    · exact absurd (s.setErr_err _) hchar

end Sys2Proof.Machine

namespace Sys2Proof.Machine

/-! ## Every command and every action is answered (20_memory.md R51, R62; logs 6 and 9) -/

/-- No branch of a command's meaning faults or refuses: success, a data error and a fatal halt are next states. -/
theorem exec_answers (i : Instr) (s : State) : ∃ t, exec i s = .next t := by
  cases i with
  | cadd | cmul | bclr | chunk | stbe => exact ⟨_, rfl⟩
  | divr =>
    rw [exec, execDivr]
    split <;> exact ⟨_, rfl⟩
  | badd | bmul | bdiv =>
    simp only [exec, execBadd, execBmul, execBdiv]
    split
    · exact ⟨_, rfl⟩
    · split <;> exact ⟨_, rfl⟩
  | ldbe =>
    rw [exec, execLdbe]
    split <;> exact ⟨_, rfl⟩
  | enc58 =>
    rw [exec, execEnc58]
    split
    · exact ⟨_, rfl⟩
    · split <;> exact ⟨_, rfl⟩
  | dec58 =>
    rw [exec, execDec58]
    split
    · exact ⟨_, rfl⟩
    · dsimp only
      split
      · split <;> exact ⟨_, rfl⟩
      · exact ⟨_, rfl⟩

theorem issue_answers (v : Word) (s : State) : ∃ t, issue v s = .next t := by
  cases hf : s.fatal with
  | true => exact ⟨s, issue_halted hf⟩
  | false =>
    cases hd : decode v with
    | error e => exact ⟨_, issue_illegal hf hd⟩
    | ok i =>
      rw [issue_legal hf hd]
      exact exec_answers i s

theorem perform_answers (a : HostAction) (s : State) : ∃ t, perform a s = .next t := by
  cases a with
  | writeReg n v =>
    by_cases hn : s.regAt n = .cmd
    · obtain rfl := State.regAt_eq_cmd hn
      exact issue_answers v s
    · exact ⟨_, writeRegister_data v s hn⟩
  | readReg | readBuf | writeBuf | readDig | writeDig | reset => exact ⟨_, rfl⟩

theorem step_answers (s : State) : ∃ t, step s = .next t := by
  cases hs : s.script with
  | nil => exact ⟨s, step_nil hs⟩
  | cons a rest =>
    rw [step_cons hs]
    exact perform_answers a s.advance

/-- Settles O6: command by command, then action by action. -/
theorem everyActionIsAnswered : Obligations.EveryActionIsAnswered :=
  ⟨exec_answers, step_answers⟩

/-! ## Reads have no side effect (20_memory.md R60) -/

/-- A read gives the host a value, and only while halted moves the model's counter. -/
theorem Performs.of_isRead {s t : State} {a : HostAction} (h : Performs s a t) (hr : a.isRead = true) :
    ∃ v, t = s.answer v ∨ s.fatal = true ∧ t = (s.answer v).drawn := by
  cases h with
  | reads _ v => exact ⟨v, .inl rfl⟩
  | readsFree _ v _ hf => exact ⟨v, .inr ⟨hf, rfl⟩⟩
  | ignored _ h => exact absurd hr (by simp [h])
  | setsCell _ _ _ _ _ h =>
    simp only [List.mem_cons, Prod.mk.injEq, List.not_mem_nil, or_false] at h
    obtain ⟨rfl, -⟩ | ⟨rfl, -⟩ := h <;> cases hr
  | setsReg | rejects | runs | resets => cases hr

/-- Settles O47: of the ways an action ends, a read has the two that answer a value. -/
theorem readsHaveNoSideEffect : Obligations.ReadsHaveNoSideEffect := by
  intro s a rest hs hr
  obtain ⟨t, ht⟩ := step_answers s
  obtain ⟨v, rfl | ⟨hf, rfl⟩⟩ := (step_performs hs ht).of_isRead hr
  · exact ⟨_, v, ht, rfl, by rw [State.advance_eq hs]; rfl, fun _ => rfl⟩
  · refine ⟨_, v, ht, rfl, by rw [State.advance_eq hs]; rfl, fun hrun => ?_⟩
    exact absurd hf (by simp [hrun])

/-! ## Data writes are idempotent (20_memory.md R60) -/

@[simp] theorem State.setReg_fatal (s : State) (r : Reg) (v : Word) : (s.setReg r v).fatal = s.fatal :=
  State.fatal_of_status (by simp)

@[simp] theorem State.setReg_regAt (s : State) (r : Reg) (v : Word) (n : BitVec 16) :
    (s.setReg r v).regAt n = s.regAt n := by
  simp [State.regAt]

@[simp] theorem State.setReg_setReg (s : State) (r : Reg) (v : Word) : (s.setReg r v).setReg r v = s.setReg r v := by
  cases r with
  | w i => simp [State.setReg]
  | _ => rfl

@[simp] theorem State.setMem_fatal (s : State) (b : Buffer) (m : Memory) : (s.setMem b m).fatal = s.fatal :=
  State.fatal_of_status (by simp)

@[simp] theorem State.setMem_capacity (s : State) (b b' : Buffer) (m : Memory) :
    (s.setMem b m).capacity b' = s.capacity b' := by
  cases b' <;> simp

@[simp] theorem State.setMem_setMem (s : State) (b : Buffer) (m m' : Memory) :
    (s.setMem b m).setMem b m' = s.setMem b m' := by
  cases b <;> rfl

theorem State.writeCell_halted {s : State} (hf : s.fatal = true) (b : Buffer) (i : BitVec 32) (v : Byte) :
    s.writeCell b i v = s := by
  rw [State.writeCell, if_pos hf]

theorem State.writeCell_of_lt {s : State} {b : Buffer} {i : BitVec 32} (hf : s.fatal = false)
    (hi : i.toNat < s.capacity b) (v : Byte) :
    s.writeCell b i v = s.setMem b ((s.mem b).splice i.toNat [v]) := by
  rw [State.writeCell, if_neg (by simp [hf]), if_pos hi]

theorem State.writeCell_of_ge {s : State} {b : Buffer} {i : BitVec 32} (hi : s.capacity b ≤ i.toNat) (v : Byte) :
    s.writeCell b i v = s := by
  rw [State.writeCell, if_neg (show ¬ i.toNat < s.capacity b by omega), ite_self]

theorem State.writeCell_writeCell (s : State) (b : Buffer) (i : BitVec 32) (v : Byte) :
    (s.writeCell b i v).writeCell b i v = s.writeCell b i v := by
  cases hf : s.fatal with
  | true => simp only [State.writeCell_halted hf]
  | false =>
    by_cases hi : i.toNat < s.capacity b
    · rw [State.writeCell_of_lt hf hi, State.writeCell_of_lt (by simpa using hf) (by simpa using hi),
        State.setMem_mem, if_pos rfl, Memory.splice_splice, State.setMem_setMem]
    · simp only [State.writeCell_of_ge (Nat.le_of_not_lt hi)]

/-- The second write of a register meets the same register and the same `FATAL`. -/
theorem writeRegister_again {s t : State} {n : BitVec 16} {v : Word} (hn : s.regAt n ≠ .cmd)
    (h : writeRegister n v s = .next t) : writeRegister n v t = .next t := by
  rw [writeRegister_data v s hn, Host.Outcome.next.injEq] at h
  cases hf : s.fatal with
  | true =>
    obtain rfl : s = t := by simpa [hf] using h
    rw [writeRegister_data v s hn, if_pos hf]
  | false =>
    obtain rfl : s.setReg (s.regAt n) v = t := by simpa [hf] using h
    rw [writeRegister_data v _ (by simpa using hn)]
    simp [hf]

/-- Settles O48: a register write and a cell write, each met by its own second time. -/
theorem dataWritesAreIdempotent : Obligations.DataWritesAreIdempotent := by
  intro s t a hread hissue hreset h
  cases a with
  | writeReg n v =>
    refine writeRegister_again (fun hn => ?_) h
    obtain rfl := State.regAt_eq_cmd hn
    cases hissue
  | writeBuf i v =>
    obtain rfl : s.writeCell .buf i v = t := Host.Outcome.next.inj h
    exact congrArg Host.Outcome.next (s.writeCell_writeCell .buf i v)
  | writeDig i v =>
    obtain rfl : s.writeCell .dig i v = t := Host.Outcome.next.inj h
    exact congrArg Host.Outcome.next (s.writeCell_writeCell .dig i v)
  | reset => exact absurd rfl hreset
  | readReg | readBuf | readDig => cases hread

/-! ## The byte-to-limb map of a load (20_memory.md R55) -/

/-- The significant part of a string, from its end: distance `j` from the end is cell `n - 1 - j`. -/
theorem State.cells_getD_reverse_drop (s : State) (b : Buffer) {n k j : Nat} (h : j < n - k) :
    ((s.cells b n).drop k).reverse.getD j 0#8 = s.cell b (n - 1 - j) := by
  rw [List.getD_eq_getElem?_getD, List.getElem?_reverse (by simpa using h), List.getElem?_drop, List.length_drop,
    State.cells_length, show k + (n - k - 1 - j) = n - 1 - j by omega, State.cells_getElem? _ _ _ _ (by omega)]
  rfl

/-- Settles O24: a load that completed packed the significant bytes, the last one first. -/
theorem ldbePlacesEveryByteInItsLimb : Obligations.LdbePlacesEveryByteInItsLimb := by
  intro s t k j _ hk h herr hj
  obtain rfl := leadingZeroCount_iff.1 hk
  rw [exec, execLdbe] at h
  obtain ⟨-, he⟩ | ⟨-, hfit, w, he, -, -, hw⟩ := s.loadBe_cases
  · rw [he] at h
    obtain rfl : s.setErr .inputTooLarge = t := Host.Outcome.next.inj h
    rw [State.setErr_err] at herr
    exact absurd herr (by decide)
  · rw [he] at h
    obtain rfl := Host.Outcome.next.inj h
    rw [State.limb, State.done_eq_setErr, State.setErr_w, State.setNumber_w, hw, packLimbs_byte _ _ _ (by omega),
      State.cells_getD_reverse_drop _ _ hj]

/-! ## The register space (20_memory.md R52, R63) -/

/-- A register that holds its value: every one while `FATAL` = 0, and the few that survive a halt. -/
theorem State.readRegister_value {s : State} {n : BitVec 16}
    (h : s.fatal = false ∨ (s.regAt n).unspecifiedWhileHalted = false) :
    s.readRegister n = s.answer (.reg (s.regValue (s.regAt n))) := by
  rw [State.readRegister, if_neg (by simpa [← Bool.not_eq_true, imp_iff_not_or] using h)]

theorem State.readRegister_free {s : State} {n : BitVec 16} (hf : s.fatal = true)
    (hu : (s.regAt n).unspecifiedWhileHalted = true) :
    s.readRegister n = (s.answer (.reg (Config.freeWord s.draw n.toNat))).drawn := by
  rw [State.readRegister, if_pos (by simp [hf, hu])]

theorem State.regAt_limb {s : State} {n : BitVec 16} {i : Nat} (hi : i < s.params.nlimb) (hn : n.toNat = 0x100 + i) :
    s.regAt n = .w i :=
  regOfNumber_limb hi hn

theorem State.regAt_reserved {s : State} {n : BitVec 16}
    (hn : 0x0F ≤ n.toNat ∧ n.toNat ≤ 0xFF ∨ 0x100 + s.params.nlimb ≤ n.toNat) : s.regAt n = .reserved :=
  regOfNumber_reserved hn

/-- A write to a register that is not `CMD`, while `FATAL` = 0. -/
theorem writeRegister_running {s : State} {n : BitVec 16} (hf : s.fatal = false) (hn : n ≠ 0#16) (v : Word) :
    writeRegister n v s = .next (s.setReg (s.regAt n) v) := by
  rw [writeRegister_data v s (mt State.regAt_eq_cmd hn), if_neg (by simp [hf])]

/-- The numbers whose register ignores a write: the read-only registers and the reserved numbers. -/
theorem writeRegister_ignored {s : State} {n : BitVec 16} (hf : s.fatal = false)
    (hn : n ∈ [0x0001#16, 0x0005#16, 0x0006#16, 0x000C#16, 0x000D#16, 0x000E#16] ∨
      0x000F ≤ n.toNat ∧ n.toNat ≤ 0x00FF ∨ 0x0100 + s.params.nlimb ≤ n.toNat) (v : Word) :
    writeRegister n v s = .next s := by
  obtain hn | hn := hn
  · simp only [List.mem_cons, List.not_mem_nil, or_false] at hn
    rcases hn with rfl | rfl | rfl | rfl | rfl | rfl <;> exact writeRegister_running hf (by decide) v
  · have hne : n ≠ 0#16 := by bv_omega
    rw [writeRegister_running hf hne, State.regAt_reserved hn]
    rfl

theorem writeRegister_limb {s : State} {n : BitVec 16} {i : Nat} (hf : s.fatal = false) (hi : i < s.params.nlimb)
    (hn : n.toNat = 0x100 + i) (v : Word) : writeRegister n v s = .next { s with w := s.w.set i v } := by
  have hne : n ≠ 0#16 := by bv_omega
  rw [writeRegister_running hf hne, State.regAt_limb hi hn]
  rfl

/-- Settles O49: the register that each number names, read by its value and written by `setReg`. -/
theorem registerSpaceReadsAndWrites : Obligations.RegisterSpaceReadsAndWrites := by
  intro s s' n rest hf hs'
  have hf' : s.advance.fatal = false := hf
  refine ⟨fun hs => ?_, fun v hs => ?_⟩ <;> obtain rfl : s' = s.advance := hs'.trans (State.advance_eq hs).symm <;>
    rw [step_cons hs, perform]
  · rw [State.readRegister_value (.inl hf'), State.advance_regAt, State.advance_regValue]
    refine ⟨s.regValue (s.regAt n), rfl, ?_⟩
    iterate 15 refine ⟨by rintro rfl; rfl, ?_⟩
    exact ⟨fun i hi hn => by rw [State.regAt_limb hi hn]; rfl, fun hn => by rw [State.regAt_reserved hn]; rfl⟩
  · refine ⟨by rintro rfl; rfl, ?_⟩
    iterate 8 refine ⟨by rintro rfl; exact writeRegister_running hf' (by decide) v, ?_⟩
    exact ⟨fun i hi hn => writeRegister_limb hf' hi hn v, fun hn => writeRegister_ignored hf' hn v⟩

/-! ## The buffer spaces (20_memory.md R53, R63) -/

theorem State.readCell_of_ge {s : State} {b : Buffer} {i : BitVec 32} (hi : s.capacity b ≤ i.toNat) :
    s.readCell b i = s.answer (.cell 0#8) := by
  rw [State.readCell, if_neg (by omega)]

theorem State.readCell_free {s : State} {b : Buffer} {i : BitVec 32} (hf : s.fatal = true)
    (hi : i.toNat < s.capacity b) :
    s.readCell b i = (s.answer (.cell (Config.freeByte s.draw b i.toNat))).drawn := by
  rw [State.readCell, if_pos hi, if_pos hf]

theorem State.readCell_running {s : State} (hf : s.fatal = false) (b : Buffer) (i : BitVec 32) :
    s.readCell b i = s.answer (.cell (if i.toNat < s.capacity b then s.cell b i.toNat else 0#8)) := by
  rw [State.readCell]
  split
  · rw [if_neg (by simp [hf])]
  · rfl

/-- A cell write below the capacity reads back there, and every other cell of the buffer reads as before. -/
theorem State.writeCell_cell {s : State} {b : Buffer} {i : BitVec 32} (hf : s.fatal = false)
    (hi : i.toNat < s.capacity b) (v : Byte) (j : Nat) :
    (s.writeCell b i v).cell b j = if j = i.toNat then v else s.cell b j := by
  rw [State.writeCell_of_lt hf hi, State.cell_splice (by rw [State.setMem_mem, if_pos rfl]) (State.setMem_epoch _ _ _)]
  by_cases hj : j = i.toNat
  · simp [hj]
  · rw [if_neg (by simp; omega), if_neg hj]

/-- A cell write changes nothing but its own buffer. -/
theorem State.writeCell_frame (s : State) (b : Buffer) (i : BitVec 32) (v : Byte) :
    s.writeCell b i v = s.setMem b ((s.writeCell b i v).mem b) := by
  have hsame : s = s.setMem b (s.mem b) := by cases b <;> rfl
  rw [State.writeCell]
  split
  · exact hsame
  · split
    · rw [State.setMem_mem, if_pos rfl]
    · exact hsame

/-- Settles O50: one law for both buffers, read by name. -/
theorem bufferSpacesReadAndWrite : Obligations.BufferSpacesReadAndWrite := by
  intro s s' i rest hf hs'
  have hf' : s.advance.fatal = false := hf
  have hwrite (b : Buffer) (v : Byte) : (i.toNat < s.capacity b →
      (s.advance.writeCell b i v).cell b i.toNat = v ∧
        ∀ j, j ≠ i.toNat → (s.advance.writeCell b i v).cell b j = s.cell b j) ∧
      (s.capacity b ≤ i.toNat → s.advance.writeCell b i v = s.advance) := by
    refine ⟨fun hi => ?_, fun hi => State.writeCell_of_ge (by simpa using hi) v⟩
    have hcell := State.writeCell_cell (b := b) hf' (by simpa using hi) v
    exact ⟨by rw [hcell, if_pos rfl], fun j hj => by rw [hcell, if_neg hj, State.advance_cell]⟩
  refine ⟨fun hs => ?_, fun hs => ?_, fun v hs => ?_, fun v hs => ?_⟩ <;>
    obtain rfl : s' = s.advance := hs'.trans (State.advance_eq hs).symm <;> rw [step_cons hs]
  · rw [perform, State.readCell_running hf', State.advance_capacity, State.advance_cell]
    rfl
  · rw [perform, State.readCell_running hf', State.advance_capacity, State.advance_cell]
    rfl
  · exact ⟨_, rfl, s.advance.writeCell_frame .buf i v, hwrite .buf v⟩
  · exact ⟨_, rfl, s.advance.writeCell_frame .dig i v, hwrite .dig v⟩

/-! ## Reads while halted (20_memory.md R63) -/

/-- What a read of a cell answers while halted. -/
theorem State.readCell_halted {s : State} (hf : s.fatal = true) (b : Buffer) (i : BitVec 32) :
    ∃ v, (s.readCell b i).reads = .cell v :: s.reads ∧
      (i.toNat < s.capacity b → v = Config.freeByte s.draw b i.toNat ∧ (s.readCell b i).draw = s.draw + 1) ∧
      (s.capacity b ≤ i.toNat → v = 0#8) := by
  by_cases hi : i.toNat < s.capacity b
  · rw [State.readCell_free hf hi]
    exact ⟨_, rfl, fun _ => ⟨rfl, rfl⟩, fun h => absurd hi (by omega)⟩
  · rw [State.readCell_of_ge (by omega)]
    exact ⟨_, rfl, fun h => absurd h hi, fun _ => rfl⟩

/-- `CMD` and the reserved numbers hold nothing: they read 0, halted or not. -/
theorem State.regValue_none {s : State} {n : BitVec 16}
    (hn : n = 0x0000#16 ∨ 0x000F ≤ n.toNat ∧ n.toNat ≤ 0x00FF ∨ 0x0100 + s.params.nlimb ≤ n.toNat) :
    (s.regAt n).unspecifiedWhileHalted = false ∧ s.regValue (s.regAt n) = 0#64 := by
  obtain rfl | hn := hn
  · exact ⟨rfl, rfl⟩
  · rw [State.regAt_reserved hn]
    exact ⟨rfl, rfl⟩

/-- Settles O40: a register that a halt leaves unspecified answers a free value, every other one its value. -/
theorem haltedReadsAnswerUnspecifiedValues : Obligations.HaltedReadsAnswerUnspecifiedValues := by
  intro s rest hf
  have hf' : s.advance.fatal = true := hf
  refine ⟨fun n hs => ?_, fun i hs => ?_, fun i hs => ?_⟩ <;> rw [step_cons hs, perform]
  · cases hu : (s.regAt n).unspecifiedWhileHalted with
    | true =>
      rw [State.readRegister_free hf' hu]
      refine ⟨_, _, rfl, rfl, ?_, ?_, ?_, ?_, fun _ => ⟨rfl, rfl⟩, fun hn => ?_⟩
      iterate 4 · rintro rfl; cases hu
      rw [(State.regValue_none hn).1] at hu
      cases hu
    | false =>
      rw [State.readRegister_value (s := s.advance) (.inr hu), State.advance_regAt, State.advance_regValue]
      refine ⟨_, _, rfl, rfl, by rintro rfl; rfl, ?_, ?_, ?_, fun hn => ?_, fun hn => (State.regValue_none hn).2⟩
      iterate 3 · rintro rfl; exact BitVec.toNat_ofNat _ _
      rw [show (s.regAt n).unspecifiedWhileHalted = true from regOfNumber_unspecified hn] at hu
      cases hu
  · obtain ⟨v, hv⟩ := State.readCell_halted hf' .buf i
    exact ⟨_, v, rfl, hv⟩
  · obtain ⟨v, hv⟩ := State.readCell_halted hf' .dig i
    exact ⟨_, v, rfl, hv⟩

end Sys2Proof.Machine

namespace Sys2Proof

/-! ## The command word (30_encoding.md R70, R72, R73) -/

/-- The two fields of format C make up the whole word (R70). -/
theorem zeroField_append_opcodeField (v : Word) : (zeroField v ++ opcodeField v : BitVec (56 + 8)) = v :=
  (BitVec.extractLsb'_append_extractLsb'_eq_extractLsb' rfl).trans BitVec.extractLsb'_eq_self

theorem decode_encode (i : Instr) : decode (encode i) = .ok i := by
  have hi : Laws.Encoding.Statement i := by
    cases i with
    | cadd => exact Laws.Encoding.cadd
    | cmul => exact Laws.Encoding.cmul
    | divr => exact Laws.Encoding.divr
    | bclr => exact Laws.Encoding.bclr
    | badd => exact Laws.Encoding.badd
    | bmul => exact Laws.Encoding.bmul
    | bdiv => exact Laws.Encoding.bdiv
    | chunk => exact Laws.Encoding.chunk
    | ldbe => exact Laws.Encoding.ldbe
    | stbe => exact Laws.Encoding.stbe
    | enc58 => exact Laws.Encoding.enc58
    | dec58 => exact Laws.Encoding.dec58
  obtain ⟨-, -, -, hdecode, -⟩ := hi
  exact hdecode

/-- A word decodes to a command exactly when its upper bits are 0 and its low byte is looked up to it. -/
theorem decode_eq_ok_iff {v : Word} {i : Instr} :
    decode v = .ok i ↔ zeroField v = 0#56 ∧ instrOfOpcode (opcodeField v) = some i := by
  rw [decode]
  split
  · split <;> simp_all
  · simp_all

/-- A word is illegal exactly when its upper bits are not 0 or its low byte is looked up to nothing. -/
theorem decode_error_iff {v : Word} :
    (∃ e, decode v = .error e) ↔ zeroField v ≠ 0#56 ∨ instrOfOpcode (opcodeField v) = none := by
  rw [decode]
  split
  · split <;> simp_all
  · simp_all

/-- An opcode is looked up to the command whose row it stands in. -/
theorem opcode_of_instrOfOpcode {op : Byte} {i : Instr} (h : instrOfOpcode op = some i) : op = i.opcode := by
  have hrows : ∀ row ∈ opcodeTable, row.1 = row.2.opcode := by decide
  obtain ⟨row, hfind, rfl⟩ := Option.map_eq_some_iff.1 h
  have hop : row.1 = op := by simpa using List.find?_some hfind
  rw [← hop, hrows row (List.mem_of_find?_eq_some hfind)]

theorem instrOfOpcode_eq_none_iff {op : Byte} : instrOfOpcode op = none ↔ op ∉ opcodeTable.map Prod.fst := by
  rw [instrOfOpcode, Option.map_eq_none_iff, List.find?_eq_none]
  simp only [beq_iff_eq, List.mem_map, not_exists, not_and]

/-- No word but `encode i` decodes to `i`: both fields are determined. -/
theorem eq_encode_of_decode {v : Word} {i : Instr} (h : decode v = .ok i) : v = encode i := by
  obtain ⟨hzero, hop⟩ := decode_eq_ok_iff.1 h
  rw [← zeroField_append_opcodeField v, hzero, opcode_of_instrOfOpcode hop, encode]

/-- Settles O1: the encoder follows the rows of the opcode map, and the two fields leave no other word. -/
theorem commandWordsRoundTrip : Obligations.CommandWordsRoundTrip :=
  ⟨decode_encode, fun _ _ => eq_encode_of_decode⟩

/-- Settles O2: three encodings written out, a set upper bit, and an opcode outside the map. -/
theorem opcodeMapWordsDecode : Obligations.OpcodeMapWordsDecode :=
  ⟨decode_encode .cadd, decode_encode .bdiv, decode_encode .dec58, by decide, by decide⟩

/-- The 64 table bits of a word stand for that word (20_memory.md R58). -/
theorem wordOfTableBits_toNat (v : Word) : wordOfTableBits 64 v.toNat = some v := by
  rw [wordOfTableBits, Nat.mod_eq_of_lt v.isLt, if_pos v.isLt, BitVec.ofNat_toNat, BitVec.setWidth_eq]

end Sys2Proof

namespace Sys2Proof.Machine

/-! ## Issuing a command word (30_encoding.md R78) -/

/-- A step that writes `CMD` issues the word at the state with the action taken. -/
theorem step_issue {s : State} {v : Word} {rest : List HostAction} (hs : s.script = .writeReg 0#16 v :: rest) :
    step s = issue v { s with script := rest, pos := s.pos + 1 } := by
  rw [step_cons hs, perform_issue, State.advance_eq hs]

/-- Settles O3: a word is illegal by one of its two fields, and issuing it is `setErr` and nothing else. -/
theorem illegalWordSetsErrUnknownOnly : Obligations.IllegalWordSetsErrUnknownOnly := by
  intro v
  refine ⟨?_, fun s rest hf hs ⟨e, he⟩ => ?_⟩
  · rw [decode_error_iff, instrOfOpcode_eq_none_iff]
    rfl
  · obtain ⟨⟨herr, hbits⟩, hrest⟩ := failsOnly_setErr { s with script := rest, pos := s.pos + 1 } .unknown
    refine ⟨_, (step_issue hs).trans (issue_illegal hf he), herr, ?_, hbits, hrest⟩
    rw [State.setErr_fatal]
    exact hf

/-- Settles O4: the three cases of R78, in its order. -/
theorem stepRunsTheDecodedCommand : Obligations.StepRunsTheDecodedCommand := by
  rintro s s' v rest hs rfl
  rw [step_issue hs]
  exact ⟨fun hf => issue_halted hf, fun hf e he => ⟨_, issue_illegal hf he, failsOnly_setErr _ _⟩,
    fun hf i hi => issue_legal hf hi⟩

theorem State.withFetchWord_toNat (s : State) (v : Word) :
    s.withFetchWord 64 v.toNat = { s with script := .writeReg 0#16 v :: s.script } := by
  rw [State.withFetchWord, State.withCommandBits, wordOfTableBits_toNat]

/-- Settles O5: the word placed in front of the script is the next one issued, and it decodes to its command. -/
theorem fetchedWordRunsNext : Obligations.FetchedWordRunsNext := by
  intro s i hf
  rw [State.withFetchWord_toNat, step_issue rfl]
  exact issue_legal hf (decode_encode i)

/-! ## What a command that does not halt writes (30_encoding.md R72) -/

/-- The commands that write a buffer and its length register, by the opcode map of R72. -/
def fillersOf : Buffer → List Instr
  | .buf => [.stbe, .dec58]
  | .dig => [.chunk, .enc58]

/-- Every delivery of `Ends` goes to a buffer that the command's row lists. -/
theorem mem_fillersOf {i : Instr} {b : Buffer}
    (h : (i, b) ∈ [(Instr.chunk, Buffer.dig), (.stbe, .buf)] ++ [(Instr.enc58, Buffer.dig), (.dec58, .buf)]) :
    i ∈ fillersOf b := by
  simp only [List.cons_append, List.nil_append, List.mem_cons, Prod.mk.injEq, List.not_mem_nil, or_false] at h
  obtain ⟨rfl, rfl⟩ | ⟨rfl, rfl⟩ | ⟨rfl, rfl⟩ | ⟨rfl, rfl⟩ := h <;> simp [fillersOf]

/-- The cells of the other buffer stay. -/
theorem State.deliver_cell_other {s : State} {b b' : Buffer} (zeros : Nat) (body : List Byte) (h : b' ≠ b) (j : Nat) :
    (s.deliver b zeros body).cell b' j = s.cell b' j := by
  obtain ⟨vs, -, hmem⟩ := s.deliver_mem b zeros body
  exact State.cell_congr (by rw [hmem, if_neg h]) (by simp) j

section
variable {s t : State} {i : Instr}

/-- The operands, `OCAP` and the epoch of the free values belong to no command (10_state.md R24, R28). -/
theorem Ends.operands (h : Ends s i t) (hf : t.fatal = false) :
    t.opa = s.opa ∧ t.opb = s.opb ∧ t.opc = s.opc ∧ t.ocap = s.ocap ∧ t.epoch = s.epoch := by
  cases h with
  | halts => simp at hf
  | _ => simp

theorem Ends.limbFile (h : Ends s i t) (hf : t.fatal = false) :
    t.w = s.w ∨ i ∈ [Instr.bclr, .badd, .bmul, .bdiv, .ldbe, .enc58, .dec58] := by
  cases h with
  | scalar | fails | fills => exact .inl (by simp)
  | limbs _ _ hi =>
    simp only [List.mem_cons, List.not_mem_nil, or_false] at hi
    obtain rfl | rfl | rfl := hi <;> simp
  | divided | loaded => exact .inr (by simp)
  | converts _ _ _ _ _ _ hi =>
    simp only [List.mem_cons, Prod.mk.injEq, List.not_mem_nil, or_false] at hi
    obtain ⟨rfl, -⟩ | ⟨rfl, -⟩ := hi <;> simp
  | halts => simp at hf

/-- `LEN` and `ZCNT` are written by the commands that take a whole buffer as a number (43_chunked_converter.md R150). -/
theorem Ends.number (h : Ends s i t) (hf : t.fatal = false) :
    (t.len = s.len ∧ t.zcnt = s.zcnt) ∨ i ∈ [Instr.ldbe, .enc58, .dec58] := by
  cases h with
  | scalar | limbs | divided | fails | fills => exact .inl (by simp)
  | loaded => exact .inr (by simp)
  | converts _ _ _ _ _ _ hi =>
    simp only [List.mem_cons, Prod.mk.injEq, List.not_mem_nil, or_false] at hi
    obtain ⟨rfl, -⟩ | ⟨rfl, -⟩ := hi <;> simp
  | halts => simp at hf

/-- `R0` and `R1` are written by the scalar commands, `R1` alone by BDIV (10_state.md R25). -/
theorem Ends.results (h : Ends s i t) (hf : t.fatal = false) :
    (t.r1 = s.r1 ∨ i ∈ [Instr.cadd, .cmul, .divr, .bdiv]) ∧ (t.r0 = s.r0 ∨ i ∈ [Instr.cadd, .cmul, .divr]) := by
  cases h with
  | scalar _ _ hi =>
    refine ⟨.inr ?_, .inr hi⟩
    simp only [List.mem_cons, List.not_mem_nil, or_false] at hi
    obtain rfl | rfl | rfl := hi <;> simp
  | divided => simp
  | limbs | loaded | fails | fills | converts => simp
  | halts => simp at hf

/-- A buffer and its length register are written by the commands that deliver into it (R151). -/
theorem Ends.buffer (h : Ends s i t) (hf : t.fatal = false) (b : Buffer) :
    (t.length b = s.length b ∧ ∀ j, t.cell b j = s.cell b j) ∨ i ∈ fillersOf b := by
  cases h with
  | scalar | limbs | divided | loaded | fails => exact .inl (by cases b <;> exact ⟨rfl, fun _ => rfl⟩)
  | fills _ b' zeros body hi =>
    by_cases hb : b = b'
    · exact .inr (mem_fillersOf (List.mem_append_left _ (hb ▸ hi)))
    · exact .inl ⟨State.deliver_length_other zeros body hb, State.deliver_cell_other zeros body hb⟩
  | converts _ b' k w zeros body hi =>
    by_cases hb : b = b'
    · exact .inr (mem_fillersOf (List.mem_append_right _ (hb ▸ hi)))
    · have hlength : (s.setNumber k w).length b = s.length b := by cases b <;> rfl
      have hcell : ∀ j, (s.setNumber k w).cell b j = s.cell b j := by cases b <;> exact fun _ => rfl
      exact .inl ⟨(State.deliver_length_other zeros body hb).trans hlength,
        fun j => (State.deliver_cell_other zeros body hb j).trans (hcell j)⟩
  | halts => simp at hf

end

/-- Settles O45: each way a command ends without a halt writes only what its row of R72 lists. -/
theorem commandsWriteOnlyTheirRegisters : Obligations.CommandsWriteOnlyTheirRegisters := by
  intro i s t _ h hf
  have hends := exec_ends h
  obtain ⟨hopa, hopb, hopc, hocap, hepoch⟩ := hends.operands hf
  obtain ⟨hparams, hscript, hpos, hreads⟩ := hends.host
  have hnumber := hends.number hf
  obtain ⟨hr1, hr0⟩ := hends.results hf
  have hbuf := hends.buffer hf .buf
  have hdig := hends.buffer hf .dig
  exact ⟨hopa, hopb, hopc, hocap, hparams, hscript, hpos, hreads, hepoch, (hends.limbFile hf).resolve_left,
    fun hne => hnumber.resolve_left fun hsame => hne hsame.1, fun hne => hnumber.resolve_left fun hsame => hne hsame.2,
    hr0.resolve_left, hr1.resolve_left,
    fun hne => hbuf.resolve_left fun hsame => hne hsame.1, fun hne => hdig.resolve_left fun hsame => hne hsame.1,
    fun ⟨j, hne⟩ => hbuf.resolve_left fun hsame => hne (hsame.2 j),
    fun ⟨j, hne⟩ => hdig.resolve_left fun hsame => hne (hsame.2 j)⟩

end Sys2Proof.Machine

namespace Sys2Proof.Machine

/-! ## The laws of the scalar primitives (41_scalar_primitives.md R107) -/

theorem carryingAdd_comm (a b : Word) : carryingAdd a b = carryingAdd b a := by
  rw [carryingAdd, carryingAdd, Nat.add_comm]

theorem carryingMul_comm (a b c : Word) : carryingMul a b c = carryingMul b a c := by
  rw [carryingMul, carryingMul, Nat.mul_comm]

/-- A result that fits one word has no high half. -/
theorem carryingMul_snd_eq_zero {a b c : Word} (h : a.toNat * b.toNat + c.toNat < 2 ^ 64) :
    (carryingMul a b c).2 = 0#64 := by
  rw [word_eq_zero_iff, carryingMul_snd, Nat.div_eq_of_lt h]

/-- A result that is the value of a word `x` is returned as `x` alone. -/
theorem carryingMul_eq_word {a b c x : Word} (h : a.toNat * b.toNat + c.toNat = x.toNat) :
    carryingMul a b c = (x, 0#64) := by
  have hlow : (carryingMul a b c).1 = x :=
    BitVec.eq_of_toNat_eq (by rw [carryingMul_fst, h, Nat.mod_eq_of_lt x.isLt])
  exact Prod.ext hlow (carryingMul_snd_eq_zero (h ▸ x.isLt))

/-- Multiplying back undoes the division. The equation holds for the divisor 0 too, which R107 leaves out. -/
theorem carryingMul_divRem (a b : Word) : carryingMul (divRem a b).1 b (divRem a b).2 = (a, 0#64) :=
  carryingMul_eq_word (by rw [divRem_fst, divRem_snd, Nat.div_add_mod'])

/-- Settles O11: the last three laws are those of a result that fits one word. -/
theorem scalarPrimitivesObeyTheirLaws : Obligations.ScalarPrimitivesObeyTheirLaws := fun a b c =>
  ⟨carryingAdd_comm a b, carryingMul_comm a b c, carryingMul_eq_word (Nat.mul_one _), carryingMul_snd_eq_zero,
    fun _ => carryingMul_divRem a b⟩

/-! ## The scalar commands (R102, R104, R106) -/

theorem carryingAdd_snd_le_one (a b : Word) : (carryingAdd a b).2.toNat ≤ 1 := by
  have ha := a.isLt
  have hb := b.isLt
  rw [carryingAdd_snd]
  omega

/-- What the three commands' common end does besides writing its pair to `R0` and `R1`. -/
theorem State.setResults_done_frame (s : State) (p : Word × Word) :
    ErrBecomes s (s.setResults p).done .ok ∧ SameCells s (s.setResults p).done ∧
      (s.setResults p).done = { s with r0 := p.1, r1 := p.2, status := (s.setResults p).done.status } :=
  ⟨errBecomes_of_status (u := s.setResults p) rfl rfl, sameCells_of rfl rfl rfl, rfl⟩

theorem execDivr_zero {s : State} (h : s.opb = 0#64) : execDivr s = .next (s.raiseFatal .divZero) := if_pos h

theorem execDivr_nonzero {s : State} (h : s.opb ≠ 0#64) :
    execDivr s = .next (s.setResults (divRem s.opa s.opb)).done := if_neg h

/-- Settles O8: the pair is that of `carryingAdd`. -/
theorem caddWritesSumAndCarry : Obligations.CaddWritesSumAndCarry :=
  ⟨decode_encode .cadd, fun s => ⟨_, rfl, carryingAdd_fst _ _, carryingAdd_snd _ _, carryingAdd_snd_le_one _ _,
    s.setResults_done_frame _⟩⟩

/-- Settles O9: the pair is that of `carryingMul`, whose halves make up the exact result. -/
theorem cmulWritesLowAndHighHalf : Obligations.CmulWritesLowAndHighHalf := by
  refine ⟨decode_encode .cmul, fun s => ⟨_, rfl, carryingMul_fst _ _ _, ?_, s.setResults_done_frame _⟩⟩
  rw [Nat.mul_comm _ (2 ^ 64)]
  exact carryingMul_value s.opa s.opb s.opc

/-- Settles O10: the two branches of DIVR; the pair of the second is that of `divRem`. -/
theorem divrWritesQuotientAndRemainder : Obligations.DivrWritesQuotientAndRemainder :=
  ⟨decode_encode .divr, fun s => ⟨execDivr_zero, fun h =>
    ⟨_, execDivr_nonzero h, divRem_fst _ _, divRem_snd _ _, s.setResults_done_frame _⟩⟩⟩

end Sys2Proof.Machine

namespace Sys2Proof.Machine

/-! ## What an overflow of inplace_add needs (42_bigint_engine.md R127) -/

/-- Limbs one below the next power of the limb base are all 2^64 - 1. -/
theorem eq_top_of_le_val_succ {xs : List Word} (h : 2 ^ (64 * xs.length) ≤ val xs + 1) :
    ∀ x ∈ xs, x = 0xFFFFFFFFFFFFFFFF#64 := by
  induction xs with
  | nil => simp
  | cons x xs ih =>
    have hx := x.isLt
    have hxs := val_lt xs
    rw [List.length_cons, pow_limb_succ, val_cons] at h
    generalize 2 ^ (64 * xs.length) = P at *
    have htop : x = 0xFFFFFFFFFFFFFFFF#64 := BitVec.eq_of_toNat_eq (show x.toNat = 2 ^ 64 - 1 by omega)
    exact List.forall_mem_cons.2 ⟨htop, ih (by omega)⟩

/-- A word added to limbs overflows only through a carry out of the lowest limb and out of every limb above it. -/
theorem carries_of_le_val_cons_add {x s : Word} {xs : List Word} {m : Nat} (hlen : xs.length = m)
    (h : 2 ^ (64 * (m + 1)) ≤ val (x :: xs) + s.toNat) :
    (∀ y ∈ xs, y = 0xFFFFFFFFFFFFFFFF#64) ∧ 2 ^ 64 ≤ x.toNat + s.toNat := by
  subst hlen
  have hx := x.isLt
  have hs := s.isLt
  have hxs := val_lt xs
  rw [pow_limb_succ, val_cons] at h
  have htop : 2 ^ (64 * xs.length) ≤ val xs + 1 := by omega
  exact ⟨eq_top_of_le_val_succ htop, by omega⟩

/-- The same of the first `n` limbs of a limb file, by their indices. -/
theorem carries_of_le_val_take_add {w : List Word} {n : Nat} {s : Word} (h1 : 1 ≤ n) (hn : n ≤ w.length)
    (h : 2 ^ (64 * n) ≤ val (w.take n) + s.toNat) :
    (∀ i, 1 ≤ i → i < n → w.getD i 0#64 = 0xFFFFFFFFFFFFFFFF#64) ∧ 2 ^ 64 ≤ (w.getD 0 0#64).toNat + s.toNat := by
  obtain ⟨m, rfl⟩ : ∃ m, n = m + 1 := ⟨n - 1, by omega⟩
  cases w with
  | nil => simp at hn
  | cons x xs =>
    have hm : m ≤ xs.length := by simpa using hn
    rw [List.take_succ_cons] at h
    obtain ⟨htop, hlow⟩ := carries_of_le_val_cons_add (List.length_take_of_le hm) h
    refine ⟨fun i hi him => ?_, hlow⟩
    obtain ⟨j, rfl⟩ : ∃ j, i = j + 1 := ⟨i - 1, by omega⟩
    rw [List.getD_cons_succ, List.getD_eq_getElem _ _ (by omega)]
    exact htop _ (List.mem_take_iff_getElem.2 ⟨j, by omega, rfl⟩)

/-! ## The laws of the procedures (R127, R133, R139) -/

/-- Settles O14: the two ends of inplace_add, and what the overflow needs. -/
theorem inplaceAddAddsToTheValue : Obligations.InplaceAddAddsToTheValue := by
  intro w n s h2 hn
  obtain ⟨hbig, herr⟩ | ⟨w', hok, -, -, hsmall, hval⟩ := inplaceAdd_cases s h2 hn
  · exact ⟨fun hlt => absurd hbig (Nat.not_le.2 hlt),
      fun _ => ⟨herr, carries_of_le_val_take_add (by omega) hn hbig⟩⟩
  · exact ⟨fun _ => ⟨w', hok, hval⟩, fun hle => absurd hle (Nat.not_le.2 hsmall)⟩

/-- Settles O16: a top limb that is 0 bounds the value and rules out the one failure on limbs that exist. -/
theorem inplaceMulMultipliesTheValue : Obligations.InplaceMulMultipliesTheValue := by
  intro w n s h1 hn htop
  obtain ⟨hne, -⟩ | ⟨-, w', hok, -, -, hval⟩ := inplaceMul_cases s h1 hn
  · exact absurd htop hne
  · exact ⟨(top_zero_iff h1 hn).1 htop, w', hok, hval⟩

/-- Settles O18: the one failure on limbs that exist is the divisor 0. -/
theorem divRemScalarDividesTheValue : Obligations.DivRemScalarDividesTheValue := by
  intro w n d h1 hn hd
  obtain ⟨hz, -⟩ | ⟨-, w', r, hok, -, hdrop, hrem, hquot⟩ := divRemScalar_cases d h1 hn
  · exact absurd hz hd
  · exact ⟨w', r, hok, hrem, hquot, hdrop⟩

/-! ## The commands of the engine (R121, R122, R126, R132, R138) -/

section
variable {s : State}

/-- R121: the length range check comes before everything else that the command does. -/
theorem exec_lenRange {i : Instr} (hi : i ∈ [Instr.badd, .bmul, .bdiv, .stbe]) (h : s.len.toNat > s.params.nlimb) :
    exec i s = .next (s.raiseFatal .lenRange) := by
  have hout : s.lenOutOfRange = true := decide_eq_true h
  simp only [List.mem_cons, List.not_mem_nil, or_false] at hi
  obtain rfl | rfl | rfl | rfl := hi
  · exact if_pos hout
  · exact if_pos hout
  · exact if_pos hout
  · exact congrArg _ (State.storeBe_of_gt h)

theorem State.lenOutOfRange_of_le (h : s.len.toNat ≤ s.params.nlimb) : ¬ s.lenOutOfRange = true := by
  simpa [State.lenOutOfRange] using h

/-! In range, each command ends as its procedure does: fatal entry with the cause raised, or the limb file answered -/

theorem exec_badd_error {c : FatalCause} (h : s.len.toNat ≤ s.params.nlimb)
    (he : inplaceAdd s.w s.len.toNat s.opa = .error c) : exec .badd s = .next (s.raiseFatal c) := by
  rw [exec, execBadd, if_neg (State.lenOutOfRange_of_le h), he]

theorem exec_badd_ok {w : List Word} (h : s.len.toNat ≤ s.params.nlimb)
    (hw : inplaceAdd s.w s.len.toNat s.opa = .ok w) : exec .badd s = .next ({ s with w := w } : State).done := by
  rw [exec, execBadd, if_neg (State.lenOutOfRange_of_le h), hw]

theorem exec_bmul_error {c : FatalCause} (h : s.len.toNat ≤ s.params.nlimb)
    (he : inplaceMul s.w s.len.toNat s.opa = .error c) : exec .bmul s = .next (s.raiseFatal c) := by
  rw [exec, execBmul, if_neg (State.lenOutOfRange_of_le h), he]

theorem exec_bmul_ok {w : List Word} (h : s.len.toNat ≤ s.params.nlimb)
    (hw : inplaceMul s.w s.len.toNat s.opa = .ok w) : exec .bmul s = .next ({ s with w := w } : State).done := by
  rw [exec, execBmul, if_neg (State.lenOutOfRange_of_le h), hw]

theorem exec_bdiv_error {c : FatalCause} (h : s.len.toNat ≤ s.params.nlimb)
    (he : divRemScalar s.w s.len.toNat s.opa = .error c) : exec .bdiv s = .next (s.raiseFatal c) := by
  rw [exec, execBdiv, if_neg (State.lenOutOfRange_of_le h), he]

theorem exec_bdiv_ok {w : List Word} {r : Word} (h : s.len.toNat ≤ s.params.nlimb)
    (hw : divRemScalar s.w s.len.toNat s.opa = .ok (w, r)) :
    exec .bdiv s = .next ({ s with w := w, r1 := r } : State).done := by
  rw [exec, execBdiv, if_neg (State.lenOutOfRange_of_le h), hw]

end

/-- What the common end of the four commands does besides writing the limb file, with a new `R1` (BDIV) or the old one. -/
theorem State.setLimbs_done_frame (s : State) (w : List Word) (r : Word) :
    ErrBecomes s ({ s with w := w, r1 := r } : State).done .ok ∧
      SameCells s ({ s with w := w, r1 := r } : State).done ∧
      ({ s with w := w, r1 := r } : State).done =
        { s with w := w, r1 := r, status := ({ s with w := w, r1 := r } : State).done.status } :=
  ⟨errBecomes_of_status (u := { s with w := w, r1 := r }) rfl rfl, sameCells_of rfl rfl rfl, rfl⟩

/-- Settles O12: the new limb file is NLIMB zeros. -/
theorem bclrClearsEveryLimb : Obligations.BclrClearsEveryLimb := by
  refine ⟨decode_encode .bclr, fun s => ⟨_, rfl, List.length_replicate, fun i => ?_, val_replicate_zero _,
    s.setLimbs_done_frame _ s.r1⟩⟩
  simp [State.limb]

/-- Settles O13: the check of R121. -/
theorem lenAboveNlimbHaltsFirst : Obligations.LenAboveNlimbHaltsFirst := fun _ _ => exec_lenRange

/-- Settles O15: R121, then the ends of inplace_add. -/
theorem baddAddsOpaToTheActiveLimbs : Obligations.BaddAddsOpaToTheActiveLimbs := by
  refine ⟨decode_encode .badd, fun s hlimbs => ⟨exec_lenRange (by simp),
    fun hle hlt => exec_badd_error hle (inplaceAdd_short s.opa hlt), fun hle h2 hbig => ?_, fun hle h2 hsmall => ?_⟩⟩
  · obtain ⟨-, herr⟩ | ⟨-, -, -, -, hlt, -⟩ := inplaceAdd_cases s.opa h2 (hlimbs ▸ hle)
    · exact exec_badd_error hle herr
    · exact absurd hbig (Nat.not_le.2 hlt)
  · obtain ⟨hge, -⟩ | ⟨w, hok, hlen, hdrop, -, hval⟩ := inplaceAdd_cases s.opa h2 (hlimbs ▸ hle)
    · exact absurd hge (Nat.not_le.2 hsmall)
    · exact ⟨_, exec_badd_ok hle hok, hval, hlen, hdrop, s.setLimbs_done_frame w s.r1⟩

/-- Settles O17: R121, then the ends of inplace_mul. -/
theorem bmulMultipliesTheActiveLimbs : Obligations.BmulMultipliesTheActiveLimbs := by
  refine ⟨decode_encode .bmul, fun s hlimbs => ⟨exec_lenRange (by simp),
    fun h0 => exec_bmul_error (by omega) (by rw [h0, inplaceMul_empty]), fun hle h1 htop => ?_, fun hle h1 htop => ?_⟩⟩
  · obtain ⟨-, herr⟩ | ⟨hzero, -⟩ := inplaceMul_cases s.opa h1 (hlimbs ▸ hle)
    · exact exec_bmul_error hle herr
    · exact absurd hzero htop
  · obtain ⟨hne, -⟩ | ⟨-, w, hok, hlen, hdrop, hval⟩ := inplaceMul_cases s.opa h1 (hlimbs ▸ hle)
    · exact absurd htop hne
    · exact ⟨_, exec_bmul_ok hle hok, hval, hlen, hdrop, s.setLimbs_done_frame w s.r1⟩

/-- Settles O19: R121, then the ends of div_rem_scalar. -/
theorem bdivDividesTheActiveLimbs : Obligations.BdivDividesTheActiveLimbs := by
  refine ⟨decode_encode .bdiv, fun s hlimbs => ⟨exec_lenRange (by simp),
    fun h0 => exec_bdiv_error (by omega) (by rw [h0, divRemScalar_empty]), fun hle h1 hz => ?_, fun hle h1 hd => ?_⟩⟩
  · obtain ⟨-, herr⟩ | ⟨hne, -⟩ := divRemScalar_cases s.opa h1 (hlimbs ▸ hle)
    · exact exec_bdiv_error hle herr
    · exact absurd hz hne
  · obtain ⟨hz, -⟩ | ⟨-, w, r, hok, hlen, hdrop, hrem, hquot⟩ := divRemScalar_cases s.opa h1 (hlimbs ▸ hle)
    · exact absurd hz hd
    · exact ⟨_, exec_bdiv_ok hle hok, hquot, hrem, hlen, hdrop, s.setLimbs_done_frame w r⟩

end Sys2Proof.Machine

namespace Sys2Proof.Machine

/-! ## The end of a command that fills a buffer, as the next command finds it (43_chunked_converter.md R151) -/

/-- Both ends of a delivery, each under the condition that the statements on CHUNK, STBE, ENC58 and DEC58 give it. -/
theorem deliver_ends {o : Host.Outcome State Fault Refusal} {s : State} {b : Buffer} {zeros : Nat} {body : List Byte}
    (h : o = .next (s.deliver b zeros body)) :
    (zeros + body.length ≤ s.effectiveCap b →
      ∃ t, o = .next t ∧ Delivered s t b (List.replicate zeros 0#8 ++ body)) ∧
    (s.effectiveCap b < zeros + body.length → ∃ t, o = .next t ∧ OutputTooSmall s t b) :=
  ⟨fun hfit => ⟨_, h, State.deliver_delivered hfit⟩, fun hshort => ⟨_, h, State.deliver_tooSmall hshort⟩⟩

/-- A delivery that ended with `ERR` = 0 found room for the whole result. -/
theorem State.delivered_of_err {s : State} {b : Buffer} {zeros : Nat} {body : List Byte}
    (h : (s.deliver b zeros body).err = ErrCode.ok.code) :
    Delivered s (s.deliver b zeros body) b (List.replicate zeros 0#8 ++ body) := by
  by_cases hfit : zeros + body.length ≤ s.effectiveCap b
  · exact State.deliver_delivered hfit
  · have hshort : OutputTooSmall s (s.deliver b zeros body) b := State.deliver_tooSmall (by omega)
    rw [hshort.1.1] at h
    exact absurd h (by decide)

section
variable {s t : State} {b : Buffer} {out : List Byte}

theorem Delivered.fits (h : Delivered s t b out) : out.length ≤ s.effectiveCap b := h.1

theorem Delivered.err (h : Delivered s t b out) : t.err = ErrCode.ok.code := h.2.1.1

theorem Delivered.fatal (h : Delivered s t b out) : t.fatal = s.fatal := h.2.1.fatal

theorem Delivered.length (h : Delivered s t b out) : (t.length b).toNat = out.length := h.2.2.1

theorem Delivered.cells (h : Delivered s t b out) : t.cells b (t.length b).toNat = out := by
  obtain ⟨-, -, hlen, hcells, -⟩ := h
  rw [hlen, State.cells_eq hcells]

/-- Filling a buffer leaves the parameters, `ZCNT` and `OCAP`. -/
theorem Delivered.frame (h : Delivered s t b out) : t.params = s.params ∧ t.zcnt = s.zcnt ∧ t.ocap = s.ocap := by
  obtain ⟨-, -, -, -, -, -, honly, -⟩ := h
  cases b with
  | buf =>
    rw [show t = _ from honly]
    exact ⟨rfl, rfl, rfl⟩
  | dig =>
    rw [show t = _ from honly]
    exact ⟨rfl, rfl, rfl⟩

theorem Delivered.params (h : Delivered s t b out) : t.params = s.params := h.frame.1

theorem Delivered.zcnt (h : Delivered s t b out) : t.zcnt = s.zcnt := h.frame.2.1

theorem Delivered.ocap (h : Delivered s t b out) : t.ocap = s.ocap := h.frame.2.2

theorem Delivered.capacity (h : Delivered s t b out) (b' : Buffer) : t.capacity b' = s.capacity b' := by
  cases b' with
  | buf => exact congrArg Params.bcap h.params
  | dig => exact congrArg Params.dcap h.params

theorem Delivered.length_le_capacity (h : Delivered s t b out) : (t.length b).toNat ≤ t.capacity b := by
  rw [h.length, h.capacity]
  exact Nat.le_trans h.fits (Nat.min_le_right _ _)

theorem Delivered.effectiveCap (h : Delivered s t b out) (b' : Buffer) : t.effectiveCap b' = s.effectiveCap b' := by
  rw [State.effectiveCap, State.effectiveCap, h.ocap, h.capacity]

end

@[simp] theorem State.setNumber_effectiveCap (s : State) (k : Nat) (w : List Word) (b : Buffer) :
    (s.setNumber k w).effectiveCap b = s.effectiveCap b := by
  cases b <;> rfl

/-! ## Strings with leading zeros (R152, R180): the count and the value determine the string -/

/-- A string in a base that has `k` leading zeros and stands for `v`. -/
structure Numeral (base k v : Nat) (l : List Byte) : Prop where
  digits : ∀ d ∈ l, d.toNat < base
  zeros : LeadingZeroCount l k
  value : stringValue base l = v

/-- What the converter delivers: `k` zeros before digits that have no leading zero. -/
theorem numeral_zeros_append {base : Nat} (k : Nat) {ds : List Byte} (hb : 2 ≤ base) (hlt : ∀ d ∈ ds, d.toNat < base)
    (hhead : ds = [] ∨ ds.getD 0 0#8 ≠ 0#8) :
    Numeral base k (stringValue base ds) (List.replicate k 0#8 ++ ds) where
  digits d hd := by
    obtain hd | hd := List.mem_append.1 hd
    · rw [List.eq_of_mem_replicate hd]
      exact Nat.lt_of_lt_of_le Nat.zero_lt_two hb
    · exact hlt d hd
  zeros := leadingZeroCount_zeros_append k hhead
  value := stringValue_replicate_zero base k ds

theorem numeral_shortestBytes (k : Nat) (limbs : List Word) :
    Numeral 256 k (val limbs) (List.replicate k 0#8 ++ shortestBytes limbs) := by
  obtain ⟨hval, -, hhead⟩ := shortestBytes_spec limbs
  exact hval ▸ numeral_zeros_append k (by omega) (byte_lt _) hhead

section
variable {base k v : Nat} {l l' : List Byte}

theorem Numeral.significant (h : Numeral base k v l) (hb : 2 ≤ base) : LeastCount base v (l.length - k) := by
  obtain ⟨hlt, hk, rfl⟩ := h
  obtain rfl := leadingZeroCount_iff.1 hk
  have hleast := leastCount_of_head hb (fun d hd => hlt d (List.mem_of_mem_drop hd)) (drop_leadingZeros_head l)
  rwa [stringValue_drop_leadingZeros, List.length_drop] at hleast

theorem Numeral.length_le {m : Nat} (h : Numeral base k v l) (hb : 2 ≤ base) (hm : v < base ^ m) :
    l.length ≤ k + m := by
  have := (h.significant hb).2 m hm
  omega

theorem Numeral.unique (hb : 2 ≤ base) (h : Numeral base k v l) (h' : Numeral base k v l') : l = l' := by
  have hsig := leastCount_unique (h.significant hb) (h'.significant hb)
  have hk := h.zeros.1
  have hk' := h'.zeros.1
  exact stringValue_inj (by omega) h.digits h'.digits (h.value.trans h'.value.symm)

end

/-- A byte string has as many bytes as its limbs hold. -/
theorem pow_bytes (n : Nat) : (256 : Nat) ^ (8 * n) = 2 ^ (64 * n) := by
  rw [show (256 : Nat) = 2 ^ 8 from rfl, ← Nat.pow_mul, ← Nat.mul_assoc]

/-! ## encode_chunk and CHUNK (R155, R156) -/

/-- Settles O21: the digits of R155 and their value. -/
theorem encodeChunkGivesTheTenLowDigits : Obligations.EncodeChunkGivesTheTenLowDigits := fun v =>
  ⟨encodeChunk_length v, fun _ => encodeChunk_digit v, b58_encodeChunk v⟩

/-- Settles O22: CHUNK is the delivery of ten digits with no zeros before them. -/
theorem chunkDeliversTenDigits : Obligations.ChunkDeliversTenDigits := by
  refine ⟨decode_encode .chunk, fun s => ?_⟩
  have hends := deliver_ends (rfl : exec .chunk s = .next (s.deliver .dig 0 (encodeChunk s.opa)))
  simpa only [encodeChunk_length, Nat.zero_add, List.replicate_zero, List.nil_append] using hends

/-! ## LDBE and STBE (R161, R166) -/

/-- Settles O23: the two outcomes of the load. -/
theorem ldbeLoadsTheBigEndianValue : Obligations.LdbeLoadsTheBigEndianValue := by
  refine ⟨decode_encode .ldbe, fun s k hk => ?_⟩
  obtain rfl := leadingZeroCount_iff.1 hk
  obtain ⟨hlarge, he⟩ | ⟨hcap, hfit, w, he, hlen, hval, -⟩ := s.loadBe_cases
  · have hexec : exec .ldbe s = .next (s.setErr .inputTooLarge) := by
      rw [exec, execLdbe, he]
      rfl
    have hfails : ∃ t, exec .ldbe s = .next t ∧ FailsOnly s t .inputTooLarge := ⟨_, hexec, failsOnly_setErr s _⟩
    exact ⟨fun _ => hfails, fun _ _ => hfails, fun hcap hfit => by omega⟩
  · refine ⟨fun h => by omega, fun _ h => by omega, fun _ _ => ?_⟩
    have hexec : exec .ldbe s = .next ((s.withNumber w (leadingZeros (s.cells .buf s.blen.toNat))).setErr .ok) := by
      rw [exec, execLdbe, he]
      rfl
    exact ⟨_, hexec, hlen, hval, errBecomes_of_status rfl rfl, sameCells_of rfl rfl rfl, rfl⟩

/-- Settles O25: the range check of R121, then the delivery of the shortest bytes. -/
theorem stbeStoresTheShortestByteString : Obligations.StbeStoresTheShortestByteString := by
  refine ⟨decode_encode .stbe, fun s => ⟨exec_lenRange (by simp), fun hle => ?_⟩⟩
  obtain ⟨hval, hleast, -⟩ := shortestBytes_spec s.active
  exact ⟨_, hval, hleast, deliver_ends (congrArg Host.Outcome.next (State.storeBe_of_le hle))⟩

/-! ## The division loop of ENC58 (R171, R139) -/

/-- One more low digit is one digit more, when the number is not 0. -/
theorem leastCount_add_mul {b c v n : Nat} (hc : c < b) (hpos : 0 < c + b * v) (h : LeastCount b v n) :
    LeastCount b (c + b * v) (n + 1) := by
  obtain ⟨hlt, hleast⟩ := h
  refine ⟨?_, fun m hm => ?_⟩
  · calc c + b * v < b * (v + 1) := by rw [Nat.mul_add]; omega
      _ ≤ b * b ^ n := Nat.mul_le_mul_left _ hlt
      _ = b ^ (n + 1) := (Nat.pow_succ').symm
  · cases m with
    | zero =>
      rw [Nat.pow_zero] at hm
      omega
    | succ m =>
      rw [Nat.pow_succ'] at hm
      exact Nat.succ_le_succ (hleast m (Nat.lt_of_mul_lt_mul_left (Nat.lt_of_le_of_lt (Nat.le_add_left _ _) hm)))

/-- Chunks whose last is not 0 are the digits of their value in base 58^10, as few as it allows. -/
theorem leastCount_chunksValue {cs : List Word} (hlt : ∀ c ∈ cs, c.toNat < 58 ^ 10) (hlast : cs.getLast? ≠ some 0#64) :
    LeastCount (58 ^ 10) (chunksValue cs) cs.length := by
  induction cs with
  | nil => exact ⟨by simp [chunksValue], fun _ _ => Nat.zero_le _⟩
  | cons c cs ih =>
    obtain ⟨hc, hcs⟩ := List.forall_mem_cons.1 hlt
    rw [chunksValue, List.length_cons]
    cases cs with
    | nil =>
      have hne : c.toNat ≠ 0 := fun h0 => hlast (congrArg some ((word_eq_zero_iff c).2 h0))
      exact leastCount_add_mul hc (by omega) ⟨by simp [chunksValue], fun _ _ => Nat.zero_le _⟩
    | cons d ds =>
      have htail := ih hcs (by rwa [List.getLast?_cons_cons] at hlast)
      have hpos : 0 < chunksValue (d :: ds) := by
        by_contra h0
        have := htail.2 0 (by rw [Nat.pow_zero]; omega)
        simp at this
      exact leastCount_add_mul hc (by omega) htail

/-- Ten digits make one digit of the base's tenth power. -/
theorem leastCount_pow_ten {b v m n : Nat} (hb : 0 < b) (hm : LeastCount b v m) (hn : LeastCount (b ^ 10) v n) :
    n = (m + 9) / 10 := by
  have hle : m ≤ 10 * n := hm.2 _ (by rw [Nat.pow_mul]; exact hn.1)
  have hge : n ≤ (m + 9) / 10 := hn.2 _ (by
    rw [← Nat.pow_mul]
    exact Nat.lt_of_lt_of_le hm.1 (Nat.pow_le_pow_right hb (by omega)))
  omega

/-- Settles O27: the chunks are the digits of the value in base 58^10. -/
theorem encodeLoopMakesOnePassPerTenDigits : Obligations.EncodeLoopMakesOnePassPerTenDigits := by
  intro w n m hn hm
  obtain ⟨cs, w', hok, -, -, hzero, hlt, hval, hlast⟩ := divideOut_spec (2 * n) w hn (divideOut_fuel hn)
  have hcount := leastCount_chunksValue hlt hlast
  rw [hval] at hcount
  exact ⟨cs, w', hok, hzero, leastCount_pow_ten (by omega) hm hcount, hlt⟩

/-! ## ENC58 and DEC58 (R170, R175) -/

/-- Settles O26: a failed load, or the delivery of the digits. -/
theorem enc58DeliversTheBase58Digits : Obligations.Enc58DeliversTheBase58Digits := by
  refine ⟨decode_encode .enc58, fun s k hk => ?_⟩
  obtain rfl := leadingZeroCount_iff.1 hk
  obtain ⟨hlarge, he⟩ | ⟨hcap, hfit, ds, hval, hlt, hhead, he⟩ := execEnc58_cases s
  · exact ⟨fun _ => ⟨_, he, failsOnly_setErr s _⟩, fun hcap hfit => by omega⟩
  · refine ⟨fun h => by omega, fun _ _ => ⟨ds, hval, hlt, ?_, deliver_ends he⟩⟩
    exact hval ▸ leastCount_of_head (by omega) hlt hhead

/-- One significant digit or none has nothing before its last digit. -/
theorem dropLast_drop_eq_nil {l : List Byte} {k : Nat} (h : l.length - k < 2) : (l.drop k).dropLast = [] :=
  List.eq_nil_of_length_eq_zero (by rw [List.length_dropLast, List.length_drop]; omega)

/-- Settles O28: the four outcomes of DEC58 in test order. -/
theorem dec58DeliversTheBytes : Obligations.Dec58DeliversTheBytes := by
  refine ⟨decode_encode .dec58, fun s ds k hp hds hk => ?_⟩
  subst hds
  obtain rfl := leadingZeroCount_iff.1 hk
  obtain ⟨hlarge, he⟩ | ⟨hcap, ⟨d, hd, hbad⟩, he⟩ | ⟨hcap, hlt, ⟨-, hbig⟩, he⟩ |
    ⟨hcap, hlt, hsmall, w, hlen, hval, he⟩ := execDec58_cases hp
  · exact ⟨fun _ => ⟨_, he, failsOnly_setErr s _⟩, fun h => by omega, fun h => by omega, fun h => by omega⟩
  · have hnot : ¬ ∀ d ∈ s.cells .dig s.dlen.toNat, d.toNat < 58 := fun h => Nat.not_le.2 (h d hd) hbad
    exact ⟨fun h => by omega, fun _ _ => ⟨_, he, failsOnly_setErr s _⟩, fun _ h => absurd h hnot,
      fun _ h => absurd h hnot⟩
  · refine ⟨fun h => by omega, fun _ ⟨d, hd, hbad⟩ => absurd (hlt d hd) (Nat.not_lt.2 hbad), fun _ _ _ _ => he,
      fun _ _ hsmall => ?_⟩
    obtain hshort | hsmall := hsmall
    · rw [dropLast_drop_eq_nil hshort] at hbig
      exact absurd hbig (Nat.not_le.2 (Nat.two_pow_pos _))
    · exact absurd hbig (Nat.not_le.2 hsmall)
  · refine ⟨fun h => by omega, fun _ ⟨d, hd, hbad⟩ => absurd (hlt d hd) (Nat.not_lt.2 hbad), fun _ _ h2 hbig => ?_,
      fun _ _ _ => ?_⟩
    · obtain hnil | hsmall := hsmall
      · have := congrArg List.length hnil
        rw [List.length_drop, List.length_nil] at this
        omega
      · exact absurd hbig (Nat.not_le.2 hsmall)
    · obtain ⟨hbe, hleast, -⟩ := shortestBytes_spec w
      exact ⟨w, _, hlen, hval, hval ▸ hbe, hval ▸ hleast, deliver_ends he⟩

/-! ## Leading zeros through the two conversions (R152) -/

/-- DEC58 on any parameters, up to the values it computes: the zeros it delivers are the zeros it counted. -/
theorem execDec58_ends (s : State) :
    (∃ e, e.code ≠ ErrCode.ok.code ∧ execDec58 s = .next (s.setErr e)) ∨
    (∃ c, execDec58 s = .next (s.raiseFatal c)) ∨
    ∃ w limbs, execDec58 s = .next ((s.setNumber (leadingZeros (s.cells .dig s.dlen.toNat)) w).deliver .buf
      (leadingZeros (s.cells .dig s.dlen.toNat)) (shortestBytes limbs)) := by
  rw [execDec58]
  split
  · exact .inl ⟨.inputTooLarge, by decide, rfl⟩
  · dsimp only
    split
    · split
      · exact .inr (.inl ⟨_, rfl⟩)
      · rename_i w _
        refine .inr (.inr ⟨w, (s.setNumber (leadingZeros (s.cells .dig s.dlen.toNat)) w).active, ?_⟩)
        rw [State.storeBe_of_le (by simpa using Nat.mod_le _ _), State.setNumber_zcnt, ofNat_leadingZeros]
    · exact .inl ⟨.badChar, by decide, rfl⟩

/-- A whole-buffer command that delivered `k` zeros before a string with none leaves `k` leading zeros and
`ZCNT` = `k`. -/
theorem Delivered.leadingZeros {s t : State} {b : Buffer} {k : Nat} {w : List Word} {body : List Byte}
    (h : Delivered (s.setNumber k w) t b (List.replicate k 0#8 ++ body)) (hk : (BitVec.ofNat 64 k).toNat = k)
    (hhead : body = [] ∨ body.getD 0 0#8 ≠ 0#8) :
    LeadingZeroCount (t.cells b (t.length b).toNat) k ∧ t.zcnt.toNat = k := by
  rw [h.cells, h.zcnt, State.setNumber_zcnt, hk]
  exact ⟨leadingZeroCount_zeros_append k hhead, rfl⟩

/-- Settles O31: of the ends of the two conversions, only a delivery has `FATAL` = 0 and `ERR` = 0. -/
theorem leadingZerosArePreserved : Obligations.LeadingZerosArePreserved := by
  refine ⟨fun s t k _ hk hexec herr => ?_, fun s t k _ hk hexec hfatal herr => ?_⟩
  · obtain rfl := leadingZeroCount_iff.1 hk
    rw [exec] at hexec
    obtain ⟨-, he⟩ | ⟨-, -, ds, -, -, hhead, he⟩ := execEnc58_cases s <;>
      obtain rfl := Host.Outcome.next.inj (he.symm.trans hexec)
    · rw [State.setErr_err] at herr
      exact absurd herr (by decide)
    · exact (State.delivered_of_err herr).leadingZeros (ofNat_leadingZeros s .buf s.blen) hhead
  · obtain rfl := leadingZeroCount_iff.1 hk
    rw [exec] at hexec
    obtain ⟨e, hne, he⟩ | ⟨c, he⟩ | ⟨w, limbs, he⟩ := execDec58_ends s <;>
      obtain rfl := Host.Outcome.next.inj (he.symm.trans hexec)
    · rw [State.setErr_err] at herr
      exact absurd herr hne
    · rw [State.raiseFatal_fatal] at hfatal
      exact absurd hfatal (by decide)
    · obtain ⟨-, -, hhead⟩ := shortestBytes_spec limbs
      exact (State.delivered_of_err herr).leadingZeros (ofNat_leadingZeros s .dig s.dlen) hhead

/-! ## The round trips (R180): each conversion takes a string to the string of the same zeros and value -/

/-- ENC58 on a byte string that fits the limbs: its digit string, if there is room for it. -/
theorem enc58_numeral {s : State} {k v : Nat} (h : Numeral 256 k v (s.cells .buf s.blen.toNat))
    (hcap : s.blen.toNat ≤ s.params.bcap) (hv : v < 2 ^ (64 * s.params.nlimb)) :
    ∃ out, Numeral 58 k v out ∧ (out.length ≤ s.effectiveCap .dig → ∃ t, exec .enc58 s = .next t ∧
      Delivered (s.setNumber k (List.replicate s.params.nlimb 0#64)) t .dig out) := by
  have hlen := h.length_le (by omega) (pow_bytes s.params.nlimb ▸ hv)
  rw [State.cells_length] at hlen
  obtain ⟨-, hk, hvalue⟩ := h
  obtain rfl := leadingZeroCount_iff.1 hk
  obtain ⟨hlarge, -⟩ | ⟨-, -, ds, hval, hlt, hhead, he⟩ := execEnc58_cases s
  · omega
  · have hds : stringValue 58 ds = v := hval.trans hvalue
    exact ⟨_, hds ▸ numeral_zeros_append _ (by omega) hlt hhead,
      fun hroom => (deliver_ends he).1 (by simpa using hroom)⟩

theorem stringValue_dropLast_le {b : Nat} (hb : 0 < b) (l : List Byte) :
    stringValue b l.dropLast ≤ stringValue b l := by
  obtain rfl | ⟨xs, x, rfl⟩ := l.eq_nil_or_concat
  · exact Nat.le_refl _
  · rw [List.concat_eq_append, List.dropLast_concat, stringValue_concat]
    exact Nat.le_trans (Nat.le_mul_of_pos_right _ hb) (Nat.le_add_right _ _)

/-- DEC58 on a digit string whose value leaves the top limb 0: its byte string, if there is room for it. -/
theorem dec58_numeral {s : State} {k v : Nat} (hp : s.params.wf = true)
    (h : Numeral 58 k v (s.cells .dig s.dlen.toNat)) (hcap : s.dlen.toNat ≤ s.params.dcap)
    (hv : v < 2 ^ (64 * (s.params.nlimb - 1))) :
    ∃ w out, Numeral 256 k v out ∧ (out.length ≤ s.effectiveCap .buf →
      ∃ t, exec .dec58 s = .next t ∧ Delivered (s.setNumber k w) t .buf out) := by
  obtain ⟨hlt, hk, hvalue⟩ := h
  obtain rfl := leadingZeroCount_iff.1 hk
  obtain ⟨hlarge, -⟩ | ⟨-, ⟨d, hd, hbad⟩, -⟩ | ⟨-, -, ⟨-, hbig⟩, -⟩ | ⟨-, -, -, w, -, hval, he⟩ := execDec58_cases hp
  · omega
  · exact absurd (hlt d hd) (Nat.not_lt.2 hbad)
  · have hle := stringValue_dropLast_le (b := 58) (by omega)
      ((s.cells .dig s.dlen.toNat).drop (leadingZeros (s.cells .dig s.dlen.toNat)))
    rw [stringValue_drop_leadingZeros, hvalue] at hle
    exact absurd hv (Nat.not_lt.2 (Nat.le_trans hbig hle))
  · have hw : val w = v := hval.trans hvalue
    exact ⟨w, _, hw ▸ numeral_shortestBytes _ w,
      fun hroom => (deliver_ends he).1 (by simpa using hroom)⟩

/-- DEC58 that completed took a digit string to its byte string, whose value fits the limbs. -/
theorem numeral_of_dec58 {s t : State} (hp : s.params.wf = true) (hexec : exec .dec58 s = .next t)
    (hfatal : t.fatal = false) (herr : t.err = ErrCode.ok.code) :
    ∃ k v w out, Numeral 58 k v (s.cells .dig s.dlen.toNat) ∧ s.dlen.toNat ≤ s.params.dcap ∧ Numeral 256 k v out ∧
      v < 2 ^ (64 * s.params.nlimb) ∧ Delivered (s.setNumber k w) t .buf out := by
  rw [exec] at hexec
  obtain ⟨-, he⟩ | ⟨-, -, he⟩ | ⟨-, -, -, he⟩ | ⟨hcap, hlt, -, w, hlen, hval, he⟩ := execDec58_cases hp <;>
    obtain rfl := Host.Outcome.next.inj (he.symm.trans hexec)
  · rw [State.setErr_err] at herr
    exact absurd herr (by decide)
  · rw [State.setErr_err] at herr
    exact absurd herr (by decide)
  · rw [State.raiseFatal_fatal] at hfatal
    exact absurd hfatal (by decide)
  · exact ⟨_, val w, w, _, ⟨hlt, leadingZeros_count _, hval.symm⟩, hcap, numeral_shortestBytes _ w, hlen ▸ val_lt w,
      State.delivered_of_err herr⟩

/-- Settles O32: both byte strings have the zeros and the value of the digit string between them. -/
theorem decodeUndoesEncode : Obligations.DecodeUndoesEncode := by
  intro s k n hp hcap hk hfit hn hdig hocap
  have hbytes : Numeral 256 k (be (s.cells .buf s.blen.toNat)) (s.cells .buf s.blen.toNat) := ⟨byte_lt _, hk, rfl⟩
  generalize be (s.cells .buf s.blen.toNat) = v at *
  have hv : v < 2 ^ (64 * (s.params.nlimb - 1)) := by
    have hsig := (hbytes.significant (by omega)).1
    rw [State.cells_length] at hsig
    rw [← pow_bytes]
    exact Nat.lt_of_lt_of_le hsig (Nat.pow_le_pow_right (by omega) hfit)
  obtain ⟨digits, hdigits, henc⟩ := enc58_numeral hbytes hcap
    (Nat.lt_of_lt_of_le hv (Nat.pow_le_pow_right (by omega) (by omega)))
  obtain ⟨t, hexect, ht⟩ := henc (Nat.le_trans (hdigits.length_le (by omega) hn.1) hdig)
  have htp : t.params = s.params := ht.params
  obtain ⟨w, bytes, hbytes', hdec⟩ := dec58_numeral (htp ▸ hp) (ht.cells.symm ▸ hdigits)
    ht.length_le_capacity (htp ▸ hv)
  obtain rfl : s.cells .buf s.blen.toNat = bytes := hbytes.unique (by omega) hbytes'
  obtain ⟨u, hexecu, hu⟩ := hdec (by
    rw [ht.effectiveCap, State.cells_length]
    exact Nat.le_min.2 ⟨hocap, hcap⟩)
  have hblen : u.blen.toNat = s.blen.toNat := hu.length.trans (s.cells_length .buf _)
  exact ⟨t, u, hexect, hexecu, hu.fatal.trans ht.fatal, ht.err, hu.err, BitVec.eq_of_toNat_eq hblen, hblen ▸ hu.cells⟩

/-- Settles O33: both digit strings have the zeros and the value of the byte string between them. -/
theorem encodeUndoesDecode : Obligations.EncodeUndoesDecode := by
  intro s t hp _ hocap hexec hfatal herr
  obtain ⟨k, v, w, bytes, hdigits, hcap, hbytes, hv, ht⟩ := numeral_of_dec58 hp hexec hfatal herr
  have htp : t.params = s.params := ht.params
  obtain ⟨digits, hdigits', henc⟩ := enc58_numeral (ht.cells.symm ▸ hbytes)
    ht.length_le_capacity (htp ▸ hv)
  obtain rfl : s.cells .dig s.dlen.toNat = digits := hdigits.unique (by omega) hdigits'
  obtain ⟨u, hexecu, hu⟩ := henc (by
    rw [ht.effectiveCap, State.cells_length]
    exact Nat.le_min.2 ⟨hocap, hcap⟩)
  have hdlen : u.dlen.toNat = s.dlen.toNat := hu.length.trans (s.cells_length .dig _)
  exact ⟨u, hexecu, hu.fatal.trans hfatal, hu.err, BitVec.eq_of_toNat_eq hdlen, hdlen ▸ hu.cells⟩

end Sys2Proof.Machine

namespace Sys2Proof.Machine

/-! ## The end of a command that does not halt (60_exceptions.md R201, R206, R210) -/

theorem ErrCode.code_injective {e e' : ErrCode} (h : e.code = e'.code) : e = e' := by
  revert h
  cases e <;> cases e' <;> decide

/-- A command that fills a buffer lists both results of a delivery, and neither is one of the early errors. -/
theorem State.deliver_result (s : State) {i : Instr} {b : Buffer} (hi : i ∈ fillersOf b) (zeros : Nat)
    (body : List Byte) :
    ∃ e ∈ resultsOf i, ErrBecomes s (s.deliver b zeros body) e ∧ e ∉ [ErrCode.inputTooLarge, .badChar] := by
  have hlisted : ∀ i ∈ fillersOf b, ErrCode.ok ∈ resultsOf i ∧ ErrCode.outputTooSmall ∈ resultsOf i := by
    cases b <;> decide
  obtain ⟨e, rfl | rfl, herr⟩ := s.deliver_errBecomes b zeros body
  · exact ⟨_, (hlisted i hi).1, herr, by simp⟩
  · exact ⟨_, (hlisted i hi).2, herr, by simp⟩

/-- A command halts, or leaves in `ERR` a result of its row of R206; the results raised before anything was written
change only `ERR`. -/
theorem Ends.result {s t : State} {i : Instr} (h : Ends s i t) :
    (∃ c, t = s.raiseFatal c) ∨
      ∃ e ∈ resultsOf i, ErrBecomes s t e ∧ (e ∈ [ErrCode.inputTooLarge, .badChar] → t = s.setErr e) := by
  cases h with
  | halts _ c => exact .inl ⟨c, rfl⟩
  | scalar _ _ hi | limbs _ _ hi =>
    refine .inr ⟨.ok, ?_, errBecomes_of_status rfl rfl, by simp⟩
    simp only [List.mem_cons, List.not_mem_nil, or_false] at hi
    obtain rfl | rfl | rfl := hi <;> simp [resultsOf]
  | divided | loaded => exact .inr ⟨.ok, by simp [resultsOf], errBecomes_of_status rfl rfl, by simp⟩
  | fails _ e hi =>
    refine .inr ⟨e, ?_, errBecomes_setErr s e, fun _ => rfl⟩
    simp only [List.mem_cons, Prod.mk.injEq, List.not_mem_nil, or_false] at hi
    obtain ⟨rfl, rfl⟩ | ⟨rfl, rfl⟩ | ⟨rfl, rfl⟩ | ⟨rfl, rfl⟩ := hi <;> simp [resultsOf]
  | fills _ b zeros body hi =>
    obtain ⟨e, he, herr, hlate⟩ := s.deliver_result (mem_fillersOf (List.mem_append_left _ hi)) zeros body
    exact .inr ⟨e, he, herr, fun hearly => absurd hearly hlate⟩
  | converts _ b k w zeros body hi =>
    obtain ⟨e, he, herr, hlate⟩ :=
      (s.setNumber k w).deliver_result (mem_fillersOf (List.mem_append_right _ hi)) zeros body
    exact .inr ⟨e, he, herr, fun hearly => absurd hearly hlate⟩

/-- Settles O37: of the results in `ERR`, the two early ones are those of a plain `setErr`. -/
theorem earlyDataErrorsChangeOnlyErr : Obligations.EarlyDataErrorsChangeOnlyErr := by
  intro i s t _ h hf
  obtain ⟨c, rfl⟩ | ⟨e, -, ⟨herr, -⟩, hearly⟩ := (exec_ends h).result
  · rw [State.raiseFatal_fatal] at hf
    cases hf
  · have hfails {e' : ErrCode} (he' : e' ∈ [ErrCode.inputTooLarge, .badChar]) (h' : t.err = e'.code) :
        FailsOnly s t e' := by
      obtain rfl : e = e' := ErrCode.code_injective (herr.symm.trans h')
      exact hearly he' ▸ failsOnly_setErr s e
    exact ⟨hfails (by simp), hfails (by simp)⟩

/-! ## The fatal causes of a command (60_exceptions.md R206) -/

theorem inplaceAdd_error {w : List Word} {n : Nat} {s : Word} {c : FatalCause} (h : inplaceAdd w n s = .error c) :
    c ∈ [FatalCause.addShort, .addCarry] := by
  rw [inplaceAdd] at h
  split at h
  · simp [← Except.error.inj h]
  · split at h
    · simp [← Except.error.inj h]
    · dsimp only at h
      split at h
      · simp [← Except.error.inj h]
      · cases h

theorem inplaceMul_error {w : List Word} {n : Nat} {s : Word} {c : FatalCause} (h : inplaceMul w n s = .error c) :
    c ∈ [FatalCause.mulEmpty, .mulTop] := by
  rw [inplaceMul] at h
  split at h
  · simp [← Except.error.inj h]
  · split at h
    · simp [← Except.error.inj h]
    · cases h

theorem divRemScalar_error {w : List Word} {n : Nat} {d : Word} {c : FatalCause}
    (h : divRemScalar w n d = .error c) : c ∈ [FatalCause.divEmpty, .divZero] := by
  rw [divRemScalar] at h
  split at h
  · simp [← Except.error.inj h]
  · split at h
    · simp [← Except.error.inj h]
    · cases h

/-- The command halts with a cause of its row of R206, or leaves `FATAL` as it was. -/
def HaltsAsListed (i : Instr) (s : State) : Prop :=
  (∃ c ∈ causesOf i, exec i s = .next (s.raiseFatal c)) ∨ ∃ t, exec i s = .next t ∧ t.fatal = s.fatal

theorem State.deliver_fatal (s : State) (b : Buffer) (zeros : Nat) (body : List Byte) :
    (s.deliver b zeros body).fatal = s.fatal := by
  obtain ⟨e, -, herr⟩ := s.deliver_errBecomes b zeros body
  exact herr.fatal

theorem haltsAsListed_divr (s : State) : HaltsAsListed .divr s := by
  by_cases hz : s.opb = 0#64
  · exact .inl ⟨.divZero, by simp [causesOf], execDivr_zero hz⟩
  · exact .inr ⟨_, execDivr_nonzero hz, State.setErr_fatal _ _⟩

/-- R121 comes first, so each command with a range check is left with `LEN` in range. -/
theorem haltsAsListed_of_range {i : Instr} {s : State} (hi : i ∈ [Instr.badd, .bmul, .bdiv, .stbe])
    (h : s.len.toNat ≤ s.params.nlimb → HaltsAsListed i s) : HaltsAsListed i s := by
  by_cases hle : s.len.toNat ≤ s.params.nlimb
  · exact h hle
  · refine .inl ⟨.lenRange, ?_, exec_lenRange hi (Nat.lt_of_not_le hle)⟩
    simp only [List.mem_cons, List.not_mem_nil, or_false] at hi
    obtain rfl | rfl | rfl | rfl := hi <;> simp [causesOf]

/-- In range, a command of the engine ends as its procedure does. -/
theorem haltsAsListed_of_procedure {α : Type} {i : Instr} {s : State} {r : Except FatalCause α}
    (hi : i ∈ [Instr.badd, .bmul, .bdiv, .stbe]) (hcause : ∀ {c}, r = .error c → c ∈ causesOf i)
    (herr : ∀ {c}, s.len.toNat ≤ s.params.nlimb → r = .error c → exec i s = .next (s.raiseFatal c))
    (hok : ∀ {a}, s.len.toNat ≤ s.params.nlimb → r = .ok a → ∃ t, exec i s = .next t ∧ t.fatal = s.fatal) :
    HaltsAsListed i s := by
  refine haltsAsListed_of_range hi fun hle => ?_
  cases hr : r with
  | error c => exact .inl ⟨c, hcause hr, herr hle hr⟩
  | ok a => exact .inr (hok hle hr)

theorem haltsAsListed_badd (s : State) : HaltsAsListed .badd s :=
  haltsAsListed_of_procedure (by simp) (fun hr => List.mem_cons_of_mem _ (inplaceAdd_error hr)) exec_badd_error
    fun hle hr => ⟨_, exec_badd_ok hle hr, State.setErr_fatal _ _⟩

theorem haltsAsListed_bmul (s : State) : HaltsAsListed .bmul s :=
  haltsAsListed_of_procedure (by simp) (fun hr => List.mem_cons_of_mem _ (inplaceMul_error hr)) exec_bmul_error
    fun hle hr => ⟨_, exec_bmul_ok hle hr, State.setErr_fatal _ _⟩

theorem haltsAsListed_bdiv (s : State) : HaltsAsListed .bdiv s :=
  haltsAsListed_of_procedure (by simp) (fun hr => List.mem_cons_of_mem _ (divRemScalar_error hr)) exec_bdiv_error
    fun hle hr => ⟨_, exec_bdiv_ok hle hr, State.setErr_fatal _ _⟩

theorem haltsAsListed_ldbe (s : State) : HaltsAsListed .ldbe s := by
  right
  rw [exec, execLdbe]
  obtain ⟨-, he⟩ | ⟨-, -, w, he, -⟩ := s.loadBe_cases <;> rw [he] <;> exact ⟨_, rfl, State.setErr_fatal _ _⟩

theorem haltsAsListed_stbe (s : State) : HaltsAsListed .stbe s :=
  haltsAsListed_of_range (by simp) fun hle =>
    .inr ⟨_, congrArg Host.Outcome.next (State.storeBe_of_le hle), State.deliver_fatal _ _ _ _⟩

theorem haltsAsListed_enc58 (s : State) : HaltsAsListed .enc58 s := by
  obtain ⟨-, he⟩ | ⟨-, -, ds, -, -, -, he⟩ := execEnc58_cases s
  · exact .inr ⟨_, he, State.setErr_fatal _ _⟩
  · exact .inr ⟨_, he, State.deliver_fatal _ _ _ _⟩

/-- On legal digits only the multiplication of the accumulation loop can overflow (R176). -/
theorem haltsAsListed_dec58 {s : State} (hp : s.params.wf = true) : HaltsAsListed .dec58 s := by
  obtain ⟨-, he⟩ | ⟨-, -, he⟩ | ⟨-, -, -, he⟩ | ⟨-, -, -, w, -, -, he⟩ := execDec58_cases hp
  · exact .inr ⟨_, he, State.setErr_fatal _ _⟩
  · exact .inr ⟨_, he, State.setErr_fatal _ _⟩
  · exact .inl ⟨.mulTop, by simp [causesOf], he⟩
  · exact .inr ⟨_, he, State.deliver_fatal _ _ _ _⟩

theorem haltsAsListed (i : Instr) {s : State} (hp : s.params.wf = true) : HaltsAsListed i s := by
  cases i with
  | cadd | cmul | bclr => exact .inr ⟨_, rfl, State.setErr_fatal _ _⟩
  | divr => exact haltsAsListed_divr s
  | badd => exact haltsAsListed_badd s
  | bmul => exact haltsAsListed_bmul s
  | bdiv => exact haltsAsListed_bdiv s
  | chunk => exact .inr ⟨_, rfl, State.deliver_fatal _ _ _ _⟩
  | ldbe => exact haltsAsListed_ldbe s
  | stbe => exact haltsAsListed_stbe s
  | enc58 => exact haltsAsListed_enc58 s
  | dec58 => exact haltsAsListed_dec58 hp

/-- Settles O36: a halt has a cause of the row, and an end without a halt has a result of the row. -/
theorem commandsEndOnlyAsTheTableLists : Obligations.CommandsEndOnlyAsTheTableLists := by
  intro i s t hp _ hs hf h
  obtain ⟨c, hc, he⟩ | ⟨u, he, hu⟩ := haltsAsListed i hp <;> obtain rfl := Host.Outcome.next.inj (he.symm.trans h)
  · exact .inr ⟨s.raiseFatal_fatal c, s.raiseFatal_err c, c, hc, rfl, s.raiseFatal_fcause c⟩
  · obtain ⟨c, rfl⟩ | ⟨e, he, herr, -⟩ := (exec_ends h).result
    · simp [hf] at hu
    · exact .inl ⟨hu.trans hf, herr.fcause.trans (hs.fcause_eq hf), e, he, herr.1⟩

/-! ## Illegal digits (R207) -/

/-- The scan of the whole string comes before the accumulation. -/
theorem execDec58_badChar {s : State} {d : Byte} (hcap : s.dlen.toNat ≤ s.params.dcap)
    (hd : d ∈ s.cells .dig s.dlen.toNat) (hbad : 58 ≤ d.toNat) : execDec58 s = .next (s.setErr .badChar) := by
  have hscan : ¬ (s.cells .dig s.dlen.toNat).all legalDigit = true := fun hall => by
    have : d.toNat < 58 := of_decide_eq_true (List.all_eq_true.1 hall d hd)
    omega
  rw [execDec58, if_neg (Nat.not_lt.2 hcap)]
  exact if_neg hscan

/-- Settles O29: the illegal digit is one of the string that is scanned. -/
theorem illegalDigitWins : Obligations.IllegalDigitWins := fun s _ hcap hi hbad =>
  ⟨_, execDec58_badChar hcap (List.mem_map_of_mem (List.mem_range.2 hi)) hbad, failsOnly_setErr s .badChar⟩

/-! ## The retry of a failed serialisation (R210, its example) -/

/-- STBE with every limb active serialises the whole limb file. -/
theorem exec_stbe_of_full {s : State} {w : List Word} {k : Nat} (hw : s.w = w) (hlimbs : w.length = s.params.nlimb)
    (hlen : s.len.toNat = s.params.nlimb) (hk : s.zcnt.toNat = k) :
    exec .stbe s = .next (s.deliver .buf k (shortestBytes w)) := by
  subst hw hk
  rw [exec, execStbe, State.storeBe_of_le hlen.le, State.active, List.take_of_length_le (by omega)]

/-- NLIMB fits a register (00_scope.md R5). -/
theorem toNat_ofNat_nlimb {p : Params} (hp : p.wf = true) : (BitVec.ofNat 64 p.nlimb).toNat = p.nlimb := by
  simp only [Params.wf, Bool.and_eq_true, decide_eq_true_eq] at hp
  exact Nat.mod_eq_of_lt (by omega)

/-- Settles O34: the failed DEC58 has left the number and the count of zeros, and STBE delivers the same string. -/
theorem stbeRetriesAfterOutputTooSmall : Obligations.StbeRetriesAfterOutputTooSmall := by
  intro s t k cap hp _ hk h hf herr
  obtain rfl := leadingZeroCount_iff.1 hk
  rw [exec] at h
  obtain ⟨-, he⟩ | ⟨-, -, he⟩ | ⟨-, -, -, he⟩ | ⟨-, -, -, w, hlimbs, hval, he⟩ := execDec58_cases hp <;>
    have ht := Host.Outcome.next.inj (h.symm.trans he)
  iterate 2
    · rw [ht, State.setErr_err] at herr
      exact absurd herr (by decide)
  · rw [ht, State.raiseFatal_fatal] at hf
    cases hf
  · obtain ⟨hbe, hleast, -⟩ := shortestBytes_spec w
    have hparams : t.params = s.params := by simp [ht]
    have hstbe := exec_stbe_of_full (s := { t with ocap := cap }) (w := w)
      (k := leadingZeros (s.cells .dig s.dlen.toNat)) (by simp [ht]) (hparams ▸ hlimbs)
      (by simp [ht, toNat_ofNat_nlimb hp]) (by simp only [ht, State.deliver_zcnt, State.setNumber_zcnt, ofNat_leadingZeros])
    exact ⟨_, hbe.trans hval, hval ▸ hleast, fun hroom => (deliver_ends hstbe).1 (hparams ▸ hroom)⟩

/-! ## Fatal entry (R203) -/

theorem State.raiseFatal_limb (s : State) (c : FatalCause) {i : Nat} (hi : i < s.params.nlimb) :
    (s.raiseFatal c).limb i = Config.freeWord s.draw (0x100 + i) := by
  simp [State.limb, freeLimbs, hi]

theorem State.raiseFatal_cell (s : State) (c : FatalCause) (b : Buffer) (i : Nat) :
    (s.raiseFatal c).cell b i = Config.freeByte s.draw b i := by
  cases b <;> rfl

theorem State.raiseFatal_status_toNat (s : State) (c : FatalCause) :
    (s.raiseFatal c).status.toNat = 0x10000 + 256 * c.code.toNat := by
  rw [State.raiseFatal_status, packStatus_toNat, Bool.toNat_true]
  simp [ErrCode.code, Nat.add_comm]

/-- Settles O38: `STATUS` is packed from the cause, everything else is drawn from this event. -/
theorem fatalEntryKeepsNothingButStatus : Obligations.FatalEntryKeepsNothingButStatus := fun s c =>
  ⟨s.raiseFatal_status_toNat c, s.raiseFatal_fatal c, s.raiseFatal_fcause c, s.raiseFatal_err c,
    rfl, rfl, rfl, rfl, rfl, rfl, rfl, rfl, rfl, rfl, freeLimbs_length _ _, fun _ => s.raiseFatal_limb c,
    s.raiseFatal_cell c, rfl, rfl, rfl, rfl, fun _ => State.raiseFatal_congr c⟩

/-! ## The halted block (R204, R205) -/

/-- While halted, no way an action other than `Reset` ends touches more than what the host has read and the model's
counter, and only a read reaches those. -/
theorem Performs.halted {s t : State} {a : HostAction} (h : Performs s a t) (hf : s.fatal = true) (hr : a ≠ .reset) :
    t = { s with reads := t.reads, draw := t.draw } ∧ (a.isRead = false → t.reads = s.reads ∧ t.draw = s.draw) := by
  cases h with
  | reads _ _ hread | readsFree _ _ hread => exact ⟨rfl, fun hwrite => by simp [hread] at hwrite⟩
  | ignored => exact ⟨rfl, fun _ => ⟨rfl, rfl⟩⟩
  | setsReg _ _ _ hrun | setsCell _ _ _ _ hrun | rejects _ hrun | runs _ _ _ hrun =>
    rw [hf] at hrun
    cases hrun
  | resets => exact absurd rfl hr

/-- Settles O39: the step moves past the action, and the action meets a halted block. -/
theorem haltedBlockIgnoresEveryAction : Obligations.HaltedBlockIgnoresEveryAction := by
  intro s a rest hf hs hr
  obtain ⟨t, ht⟩ := step_answers s
  have hhalted := (step_performs hs ht).halted hf hr
  rw [State.advance_eq hs] at hhalted
  exact ⟨t, ht, hhalted⟩

/-- Settles O41: with no action left the state stays, and any other action but `Reset` leaves `STATUS`. -/
theorem onlyResetLeavesTheHalt : Obligations.OnlyResetLeavesTheHalt := by
  intro s t hf h ht
  cases hs : s.script with
  | nil =>
    rw [step_nil hs] at h
    obtain rfl := Host.Outcome.next.inj h
    rw [hf] at ht
    cases ht
  | cons a rest =>
    by_cases hr : a = .reset
    · exact ⟨rest, by rw [hr]⟩
    · obtain ⟨hsame, -⟩ := (step_performs hs h).halted hf hr
      have hstatus : t.status = s.status := (congrArg State.status hsame :)
      rw [State.fatal_of_status hstatus, hf] at ht
      cases ht

end Sys2Proof.Machine

namespace Sys2Proof.Machine

/-! ## Reset (70_reset_and_hazards.md R230, R232) -/

/-- A step that performs `Reset` resets the block past the action, halted or not. -/
theorem step_reset {s : State} {rest : List HostAction} (hs : s.script = .reset :: rest) :
    step s = .next ({ s with script := rest, pos := s.pos + 1 } : State).resetBlock := by
  rw [step_cons hs, perform, State.advance_eq hs]

theorem State.resetBlock_limb (s : State) {i : Nat} (hi : i < s.params.nlimb) :
    s.resetBlock.limb i = Config.freeWord s.draw (0x100 + i) := by
  simp [State.limb, freeLimbs, hi]

theorem State.resetBlock_cell (s : State) (b : Buffer) (i : Nat) :
    s.resetBlock.cell b i = Config.freeByte s.draw b i := by
  cases b <;> rfl

/-- Settles O42: every field is that of `resetBlock`, and the free values are those of this event. -/
theorem resetPutsEveryResetValue : Obligations.ResetPutsEveryResetValue := fun _ _ hs =>
  ⟨_, step_reset hs, rfl, State.resetBlock_fatal _, rfl, rfl, rfl, rfl, rfl, rfl, rfl, rfl, rfl, rfl, rfl,
    fun _ => State.resetBlock_limb _, State.resetBlock_cell _, rfl, rfl, rfl⟩

/-! ## Addition after a multiplication (R242) -/

section
variable {s t : State}

theorem fatal_of_exec_raiseFatal {i : Instr} {c : FatalCause} (h : exec i s = .next t)
    (he : exec i s = .next (s.raiseFatal c)) : t.fatal = true := by
  obtain rfl := Host.Outcome.next.inj (he.symm.trans h)
  exact s.raiseFatal_fatal c

/-- R132, R133: a BMUL that completed found `LEN` in range and the top active limb 0, which bounds the old value. -/
theorem exec_bmul_completed (hlimbs : s.w.length = s.params.nlimb) (h1 : 1 ≤ s.len.toNat)
    (h : exec .bmul s = .next t) (hf : t.fatal = false) :
    s.len.toNat ≤ s.params.nlimb ∧ val s.active < 2 ^ (64 * (s.len.toNat - 1)) ∧
      val t.active = val s.active * s.opa.toNat ∧
      t.w.length = s.w.length ∧ t.len = s.len ∧ t.params = s.params := by
  have hrun {c : FatalCause} (he : exec .bmul s = .next (s.raiseFatal c)) : False := by
    rw [fatal_of_exec_raiseFatal h he] at hf
    cases hf
  have hle : s.len.toNat ≤ s.params.nlimb := by
    by_contra hgt
    exact hrun (exec_lenRange (by simp) (Nat.lt_of_not_le hgt))
  have hn : s.len.toNat ≤ s.w.length := hlimbs ▸ hle
  obtain ⟨-, he⟩ | ⟨htop, w, hok, hlen, -, hval⟩ := inplaceMul_cases s.opa h1 hn
  · exact (hrun (exec_bmul_error hle he)).elim
  · obtain rfl := Host.Outcome.next.inj ((exec_bmul_ok hle hok).symm.trans h)
    exact ⟨hle, (top_zero_iff h1 hn).1 htop, hval, hlen, rfl, rfl⟩

end

/-- R242: a value below 2^(64 * (n - 1)) times a word, plus less than that word, stays below 2^(64 * n). -/
theorem mul_add_lt_pow_limb {v n : Nat} {m a : Word} (h1 : 1 ≤ n) (hv : v < 2 ^ (64 * (n - 1)))
    (ha : a.toNat < m.toNat) : v * m.toNat + a.toNat < 2 ^ (64 * n) := by
  calc v * m.toNat + a.toNat < (v + 1) * m.toNat := by rw [Nat.succ_mul]; omega
    _ ≤ 2 ^ (64 * (n - 1)) * 2 ^ 64 := Nat.mul_le_mul hv m.isLt.le
    _ = 2 ^ (64 * n) := by rw [Nat.mul_comm, ← pow_limb_succ, Nat.sub_add_cancel h1]

/-- Settles O20: the completed BMUL bounds the old value, so the sum fits the active limbs. -/
theorem addBelowTheMultiplierNeverOverflows : Obligations.AddBelowTheMultiplierNeverOverflows := by
  intro s t a hlimbs h2 _ hmul hf ha
  have h1 : 1 ≤ s.len.toNat := by omega
  obtain ⟨hle, hbound, hval, hw, hlen, hparams⟩ := exec_bmul_completed hlimbs h1 hmul hf
  have hroom : val t.active + a.toNat < 2 ^ (64 * t.len.toNat) := by
    rw [hval, hlen]
    exact mul_add_lt_pow_limb h1 hbound ha
  obtain ⟨-, hbadd⟩ := baddAddsOpaToTheActiveLimbs
  obtain ⟨-, -, -, hdone⟩ := hbadd { t with opa := a } (by rw [hw, hparams, hlimbs])
  obtain ⟨u, hexec, hsum, -, -, herr, -⟩ := hdone (by rw [hlen, hparams]; exact hle) (hlen ▸ h2) hroom
  exact ⟨u, hexec, herr.fatal.trans hf, hsum.trans (congrArg (· + a.toNat) hval)⟩

/-! ## A bound on the digit string (R239) -/

/-- All digits but the last of `m` legal ones have a value below 58^(m - 1). -/
theorem b58_dropLast_lt {ds : List Byte} (hd : ∀ d ∈ ds, d.toNat < 58) : b58 ds.dropLast < 58 ^ (ds.length - 1) := by
  rw [← List.length_dropLast]
  exact stringValue_lt fun d h => hd d (List.mem_of_mem_dropLast h)

/-- Settles O30: of the ends of DEC58, the halt needs a value that the bounded string does not reach. -/
theorem boundedDigitStringNeverHalts : Obligations.BoundedDigitStringNeverHalts := by
  intro s k hp hf hk hbound
  obtain rfl := leadingZeroCount_iff.1 hk
  obtain ⟨-, he⟩ | ⟨-, -, he⟩ | ⟨-, hlt, ⟨-, hbig⟩, -⟩ | ⟨-, -, -, w, -, -, he⟩ := execDec58_cases hp
  · exact ⟨_, he, (State.setErr_fatal _ _).trans hf⟩
  · exact ⟨_, he, (State.setErr_fatal _ _).trans hf⟩
  · have hreach := Nat.lt_of_le_of_lt hbig (b58_dropLast_lt fun d hd => hlt d (List.mem_of_mem_drop hd))
    rw [List.length_drop, State.cells_length] at hreach
    exact absurd hbound (Nat.not_le.2 hreach)
  · exact ⟨_, he, (State.deliver_fatal _ _ _ _).trans hf⟩

end Sys2Proof.Machine
